-- ==== Sys2Proof/Word.lean ====
section
/-! DEFINITION. The word types of the machine (spec/00_scope.md R4, R9): every value is unsigned. -/

namespace Sys2Proof

/-- 8 bits: a general register, a timer, a byte of memory, the immediate nn (R4). -/
abbrev Byte := BitVec 8

/-- 16 bits: I, pc, a call-stack entry, an instruction word (R4, R60). -/
abbrev Word := BitVec 16

/-- 4 bits: a register number x or y, the opcode nibble, the sprite height n (R61). -/
abbrev Nibble := BitVec 4

/-- 12 bits: the immediate nnn (R61). -/
abbrev Imm12 := BitVec 12

end Sys2Proof
end

