-- ==== Sys2Proof/Syntax.lean ====
section
/-! DEFINITION. The instructions as data: the decoder's six fields (spec/30_encoding.md R61, R62), the 34
instructions (R64), and what decoding a byte list can answer. -/

namespace Sys2Proof

/-- The Decoded Instruction (R62): six fields, redundant views of one 16-bit word. -/
structure Fields where
  op  : Nibble
  x   : Nibble
  y   : Nibble
  n   : Nibble
  nn  : Byte
  nnn : Imm12
  deriving DecidableEq, Repr

/-- The 34 instructions, in the order of R64. Each operand has exactly the width of its field (R63: "all register
indices are 0-15", every immediate unsigned), so every term is an instruction of the machine. -/
inductive Instr where
  /-- 00E0 CLS (44_display.md R136) -/
  | cls
  /-- 00EE RET (40_flow.md R84) -/
  | ret
  /-- 1NNN JP nnn (40_flow.md R82) -/
  | jp (nnn : Imm12)
  /-- 2NNN CALL nnn (40_flow.md R83) -/
  | call (nnn : Imm12)
  /-- 3XNN SE Vx, nn (41_skip.md R90) -/
  | seImm (x : Nibble) (nn : Byte)
  /-- 4XNN SNE Vx, nn (41_skip.md R91) -/
  | sneImm (x : Nibble) (nn : Byte)
  /-- 5XY0 SE Vx, Vy (41_skip.md R92) -/
  | seReg (x y : Nibble)
  /-- 6XNN LD Vx, nn (42_alu.md R102) -/
  | ldImm (x : Nibble) (nn : Byte)
  /-- 7XNN ADD Vx, nn (42_alu.md R103) -/
  | addImm (x : Nibble) (nn : Byte)
  /-- 8XY0 LD Vx, Vy (42_alu.md R104) -/
  | ldReg (x y : Nibble)
  /-- 8XY1 OR Vx, Vy (42_alu.md R105) -/
  | orReg (x y : Nibble)
  /-- 8XY2 AND Vx, Vy (42_alu.md R106) -/
  | andReg (x y : Nibble)
  /-- 8XY3 XOR Vx, Vy (42_alu.md R107) -/
  | xorReg (x y : Nibble)
  /-- 8XY4 ADD Vx, Vy (42_alu.md R108) -/
  | addReg (x y : Nibble)
  /-- 8XY5 SUB Vx, Vy (42_alu.md R109) -/
  | subReg (x y : Nibble)
  /-- 8XY6 SHR Vx (42_alu.md R110); y is free in the word and ignored by the effect (R65) -/
  | shr (x y : Nibble)
  /-- 8XY7 SUBN Vx, Vy (42_alu.md R111) -/
  | subnReg (x y : Nibble)
  /-- 8XYE SHL Vx (42_alu.md R112); y is free in the word and ignored by the effect (R65) -/
  | shl (x y : Nibble)
  /-- 9XY0 SNE Vx, Vy (41_skip.md R93) -/
  | sneReg (x y : Nibble)
  /-- ANNN LD I, nnn (43_index_memory.md R120) -/
  | ldI (nnn : Imm12)
  /-- BNNN JP V0, nnn (40_flow.md R85) -/
  | jpV0 (nnn : Imm12)
  /-- CXNN RND Vx, nn (42_alu.md R113) -/
  | rnd (x : Nibble) (nn : Byte)
  /-- DXYN DRW Vx, Vy, n (44_display.md R137) -/
  | drw (x y n : Nibble)
  /-- EX9E SKP Vx (41_skip.md R94) -/
  | skp (x : Nibble)
  /-- EXA1 SKNP Vx (41_skip.md R95) -/
  | sknp (x : Nibble)
  /-- FX07 LD Vx, DT (45_timer_key.md R145) -/
  | ldVxDT (x : Nibble)
  /-- FX0A LD Vx, K (45_timer_key.md R146) -/
  | ldVxK (x : Nibble)
  /-- FX15 LD DT, Vx (45_timer_key.md R147) -/
  | ldDTVx (x : Nibble)
  /-- FX18 LD ST, Vx (45_timer_key.md R148) -/
  | ldSTVx (x : Nibble)
  /-- FX1E ADD I, Vx (43_index_memory.md R121) -/
  | addI (x : Nibble)
  /-- FX29 LD F, Vx (43_index_memory.md R122) -/
  | ldF (x : Nibble)
  /-- FX33 LD B, Vx (43_index_memory.md R123) -/
  | ldB (x : Nibble)
  /-- FX55 LD [I], Vx (43_index_memory.md R124) -/
  | storeRegs (x : Nibble)
  /-- FX65 LD Vx, [I] (43_index_memory.md R125) -/
  | loadRegs (x : Nibble)
  deriving DecidableEq, Repr

/-- What decoding a list of bytes answers: an instruction and the bytes after it, or a rejection by name. -/
inductive Decoded where
  | instr (i : Instr) (rest : List Byte)
  /-- the word matches no row of R64 (R67) -/
  | illegal (w : Word)
  /-- fewer than two bytes were given; every instruction is two bytes long (R60) -/
  | short
  deriving DecidableEq, Repr

end Sys2Proof
end

