-- ==== Sys2Proof/WellFormed.lean ====
section
/-! DEFINITION. Well-formedness. An `Instr` needs no check of its own: each operand has exactly its field's width, so
every term of `Instr` is well-formed and no statement carries such a premise. What can be ill-formed is a tuple of
decoded fields (the six fields are redundant, spec/30_encoding.md R62) and an instruction word (R64, R67). The table
of rows is transcribed from R64 and spec/opcode_table.json, apart from the decoder, which follows R66. -/

namespace Sys2Proof

/-- The redundancy of the six fields (R62): nn = y || n. -/
def Fields.nnAgrees (f : Fields) : Bool := f.nn == f.y.setWidth 8 <<< 4 ||| f.n.setWidth 8

/-- The redundancy of the six fields (R62): nnn = x || y || n. -/
def Fields.nnnAgrees (f : Fields) : Bool := f.nnn == f.x.setWidth 12 <<< 8 ||| f.y.setWidth 12 <<< 4 ||| f.n.setWidth 12

/-- The six fields are views of one word (R62). -/
def Fields.wellFormed (f : Fields) : Bool := f.nnAgrees && f.nnnAgrees

/-- One row of the opcode map (R64): its mnemonic in opcode_table.json, match and mask. -/
structure Row where
  mnemonic : String
  value    : Word
  mask     : Word
  deriving DecidableEq, Repr

/-- "An instruction word w selects the row whose (w & mask) = match" (R64). -/
def Row.selects (r : Row) (w : Word) : Bool := w &&& r.mask == r.value

/-- Rows 1 to 12 of R64. -/
def rowsA : List Row :=
  [⟨"CLS", 0x00E0, 0xFFFF⟩, ⟨"RET", 0x00EE, 0xFFFF⟩, ⟨"JP_nnn", 0x1000, 0xF000⟩, ⟨"CALL_nnn", 0x2000, 0xF000⟩,
   ⟨"SE_Vx__nn", 0x3000, 0xF000⟩, ⟨"SNE_Vx__nn", 0x4000, 0xF000⟩, ⟨"SE_Vx__Vy", 0x5000, 0xF00F⟩,
   ⟨"LD_Vx__nn", 0x6000, 0xF000⟩, ⟨"ADD_Vx__nn", 0x7000, 0xF000⟩, ⟨"LD_Vx__Vy", 0x8000, 0xF00F⟩,
   ⟨"OR_Vx__Vy", 0x8001, 0xF00F⟩, ⟨"AND_Vx__Vy", 0x8002, 0xF00F⟩]

/-- Rows 13 to 23 of R64. -/
def rowsB : List Row :=
  [⟨"XOR_Vx__Vy", 0x8003, 0xF00F⟩, ⟨"ADD_Vx__Vy", 0x8004, 0xF00F⟩, ⟨"SUB_Vx__Vy", 0x8005, 0xF00F⟩,
   ⟨"SHR_Vx", 0x8006, 0xF00F⟩, ⟨"SUBN_Vx__Vy", 0x8007, 0xF00F⟩, ⟨"SHL_Vx", 0x800E, 0xF00F⟩,
   ⟨"SNE_Vx__Vy", 0x9000, 0xF00F⟩, ⟨"LD_I__nnn", 0xA000, 0xF000⟩, ⟨"JP_V0__nnn", 0xB000, 0xF000⟩,
   ⟨"RND_Vx__nn", 0xC000, 0xF000⟩, ⟨"DRW_Vx__Vy__n", 0xD000, 0xF000⟩]

/-- Rows 24 to 34 of R64. -/
def rowsC : List Row :=
  [⟨"SKP_Vx", 0xE09E, 0xF0FF⟩, ⟨"SKNP_Vx", 0xE0A1, 0xF0FF⟩, ⟨"LD_Vx__DT", 0xF007, 0xF0FF⟩,
   ⟨"LD_Vx__K", 0xF00A, 0xF0FF⟩, ⟨"LD_DT__Vx", 0xF015, 0xF0FF⟩, ⟨"LD_ST__Vx", 0xF018, 0xF0FF⟩,
   ⟨"ADD_I__Vx", 0xF01E, 0xF0FF⟩, ⟨"LD_F__Vx", 0xF029, 0xF0FF⟩, ⟨"LD_B__Vx", 0xF033, 0xF0FF⟩,
   ⟨"LD__I___Vx", 0xF055, 0xF0FF⟩, ⟨"LD_Vx___I", 0xF065, 0xF0FF⟩]

/-- The opcode map: "the 34 rows below and no others" (R64). -/
def rows : List Row := rowsA ++ rowsB ++ rowsC

/-- A word is legal when some row of R64 selects it; every other word is illegal (R67). -/
def legal (w : Word) : Bool := rows.any (·.selects w)

/-- The mnemonic of an instruction's row in opcode_table.json. -/
def Instr.mnemonic : Instr → String
  | .cls => "CLS"
  | .ret => "RET"
  | .jp _ => "JP_nnn"
  | .call _ => "CALL_nnn"
  | .seImm _ _ => "SE_Vx__nn"
  | .sneImm _ _ => "SNE_Vx__nn"
  | .seReg _ _ => "SE_Vx__Vy"
  | .ldImm _ _ => "LD_Vx__nn"
  | .addImm _ _ => "ADD_Vx__nn"
  | .ldReg _ _ => "LD_Vx__Vy"
  | .orReg _ _ => "OR_Vx__Vy"
  | .andReg _ _ => "AND_Vx__Vy"
  | .xorReg _ _ => "XOR_Vx__Vy"
  | .addReg _ _ => "ADD_Vx__Vy"
  | .subReg _ _ => "SUB_Vx__Vy"
  | .shr _ _ => "SHR_Vx"
  | .subnReg _ _ => "SUBN_Vx__Vy"
  | .shl _ _ => "SHL_Vx"
  | .sneReg _ _ => "SNE_Vx__Vy"
  | .ldI _ => "LD_I__nnn"
  | .jpV0 _ => "JP_V0__nnn"
  | .rnd _ _ => "RND_Vx__nn"
  | .drw _ _ _ => "DRW_Vx__Vy__n"
  | .skp _ => "SKP_Vx"
  | .sknp _ => "SKNP_Vx"
  | .ldVxDT _ => "LD_Vx__DT"
  | .ldVxK _ => "LD_Vx__K"
  | .ldDTVx _ => "LD_DT__Vx"
  | .ldSTVx _ => "LD_ST__Vx"
  | .addI _ => "ADD_I__Vx"
  | .ldF _ => "LD_F__Vx"
  | .ldB _ => "LD_B__Vx"
  | .storeRegs _ => "LD__I___Vx"
  | .loadRegs _ => "LD_Vx___I"

/-- The number of an instruction's row in R64, counted from 0. -/
def Instr.rowIndex : Instr → Fin 34
  | .cls => 0
  | .ret => 1
  | .jp _ => 2
  | .call _ => 3
  | .seImm _ _ => 4
  | .sneImm _ _ => 5
  | .seReg _ _ => 6
  | .ldImm _ _ => 7
  | .addImm _ _ => 8
  | .ldReg _ _ => 9
  | .orReg _ _ => 10
  | .andReg _ _ => 11
  | .xorReg _ _ => 12
  | .addReg _ _ => 13
  | .subReg _ _ => 14
  | .shr _ _ => 15
  | .subnReg _ _ => 16
  | .shl _ _ => 17
  | .sneReg _ _ => 18
  | .ldI _ => 19
  | .jpV0 _ => 20
  | .rnd _ _ => 21
  | .drw _ _ _ => 22
  | .skp _ => 23
  | .sknp _ => 24
  | .ldVxDT _ => 25
  | .ldVxK _ => 26
  | .ldDTVx _ => 27
  | .ldSTVx _ => 28
  | .addI _ => 29
  | .ldF _ => 30
  | .ldB _ => 31
  | .storeRegs _ => 32
  | .loadRegs _ => 33

/-- The row of R64 an instruction belongs to. -/
def Instr.row (i : Instr) : Row := rows.getD i.rowIndex ⟨"", 0, 0⟩

end Sys2Proof
end

