-- ==== Sys2Proof/Decode.lean ====
section
/-! DEFINITION. The Instruction Decoder (spec/30_encoding.md R60 to R67) and the encoder beside it (R70). -/

namespace Sys2Proof

/-- The pure, total decoder of two bytes (R62): op = byte0 >> 4, x = byte0 & 0xF, y = byte1 >> 4, n = byte1 & 0xF,
nn = byte1, nnn = ((byte0 & 0xF) << 8) | byte1. -/
def decodeFields (byte0 byte1 : Byte) : Fields where
  op  := byte0.extractLsb' 4 4
  x   := byte0.extractLsb' 0 4
  y   := byte1.extractLsb' 4 4
  n   := byte1.extractLsb' 0 4
  nn  := byte1
  nnn := (byte0.extractLsb' 0 4).setWidth 12 <<< 8 ||| byte1.setWidth 12

/-- Second level of the dispatch for op = 0x0, keyed by the whole word (R66). -/
def select0 (f : Fields) : Option Instr :=
  if f.nnn = 0x0E0#12 then some .cls
  else if f.nnn = 0x0EE#12 then some .ret
  else none

/-- Second level of the dispatch for op = 0x8, keyed by n (R66). -/
def select8 (f : Fields) : Option Instr :=
  if f.n = 0x0#4 then some (.ldReg f.x f.y)
  else if f.n = 0x1#4 then some (.orReg f.x f.y)
  else if f.n = 0x2#4 then some (.andReg f.x f.y)
  else if f.n = 0x3#4 then some (.xorReg f.x f.y)
  else if f.n = 0x4#4 then some (.addReg f.x f.y)
  else if f.n = 0x5#4 then some (.subReg f.x f.y)
  else if f.n = 0x6#4 then some (.shr f.x f.y)
  else if f.n = 0x7#4 then some (.subnReg f.x f.y)
  else if f.n = 0xE#4 then some (.shl f.x f.y)
  else none

/-- Second level of the dispatch for op = 0xE, keyed by nn (R66). -/
def selectE (f : Fields) : Option Instr :=
  if f.nn = 0x9E#8 then some (.skp f.x)
  else if f.nn = 0xA1#8 then some (.sknp f.x)
  else none

/-- Second level of the dispatch for op = 0xF, keyed by nn (R66). -/
def selectF (f : Fields) : Option Instr :=
  if f.nn = 0x07#8 then some (.ldVxDT f.x)
  else if f.nn = 0x0A#8 then some (.ldVxK f.x)
  else if f.nn = 0x15#8 then some (.ldDTVx f.x)
  else if f.nn = 0x18#8 then some (.ldSTVx f.x)
  else if f.nn = 0x1E#8 then some (.addI f.x)
  else if f.nn = 0x29#8 then some (.ldF f.x)
  else if f.nn = 0x33#8 then some (.ldB f.x)
  else if f.nn = 0x55#8 then some (.storeRegs f.x)
  else if f.nn = 0x65#8 then some (.loadRegs f.x)
  else none

/-- The dispatch on the decoded fields (R66); `none` is an illegal word (R67). -/
def select (f : Fields) : Option Instr :=
  if f.op = 0x0#4 then select0 f
  else if f.op = 0x1#4 then some (.jp f.nnn)
  else if f.op = 0x2#4 then some (.call f.nnn)
  else if f.op = 0x3#4 then some (.seImm f.x f.nn)
  else if f.op = 0x4#4 then some (.sneImm f.x f.nn)
  else if f.op = 0x5#4 then (if f.n = 0x0#4 then some (.seReg f.x f.y) else none)
  else if f.op = 0x6#4 then some (.ldImm f.x f.nn)
  else if f.op = 0x7#4 then some (.addImm f.x f.nn)
  else if f.op = 0x8#4 then select8 f
  else if f.op = 0x9#4 then (if f.n = 0x0#4 then some (.sneReg f.x f.y) else none)
  else if f.op = 0xA#4 then some (.ldI f.nnn)
  else if f.op = 0xB#4 then some (.jpV0 f.nnn)
  else if f.op = 0xC#4 then some (.rnd f.x f.nn)
  else if f.op = 0xD#4 then some (.drw f.x f.y f.n)
  else if f.op = 0xE#4 then selectE f
  else selectF f

/-- The byte at the lower address, the high byte of the word (20_memory.md R43). -/
def highByte (w : Word) : Byte := w.extractLsb' 8 8

/-- The byte at the next address, the low byte of the word (20_memory.md R43). -/
def lowByte (w : Word) : Byte := w.extractLsb' 0 8

/-- w = byte0 || byte1 (R60). -/
def wordOf (byte0 byte1 : Byte) : Word := byte0.setWidth 16 <<< 8 ||| byte1.setWidth 16

/-- The instruction of a word, `none` where it is illegal. -/
def decodeWord (w : Word) : Option Instr := select (decodeFields (highByte w) (lowByte w))

/-- Decoding a list of bytes: the first two are the word, big-endian (R43, R60). -/
def decode : List Byte → Decoded
  | byte0 :: byte1 :: rest =>
    match select (decodeFields byte0 byte1) with
    | some i => .instr i rest
    | none => .illegal (wordOf byte0 byte1)
  | _ => .short

/-- Encoding from fields for patterns with x, y, n (R70): w = (op << 12) | (x << 8) | (y << 4) | n. -/
def wordXYN (op x y n : Nibble) : Word :=
  op.setWidth 16 <<< 12 ||| x.setWidth 16 <<< 8 ||| y.setWidth 16 <<< 4 ||| n.setWidth 16

/-- Encoding from fields for patterns with x and nn (R70): w = (op << 12) | (x << 8) | nn. -/
def wordXNN (op x : Nibble) (nn : Byte) : Word :=
  op.setWidth 16 <<< 12 ||| x.setWidth 16 <<< 8 ||| nn.setWidth 16

/-- Encoding from fields for patterns with nnn (R70): w = (op << 12) | nnn. -/
def wordNNN (op : Nibble) (nnn : Imm12) : Word := op.setWidth 16 <<< 12 ||| nnn.setWidth 16

/-- The word of an instruction (R64, R70). -/
def encode : Instr → Word
  | .cls => wordNNN 0x0 0x0E0
  | .ret => wordNNN 0x0 0x0EE
  | .jp nnn => wordNNN 0x1 nnn
  | .call nnn => wordNNN 0x2 nnn
  | .seImm x nn => wordXNN 0x3 x nn
  | .sneImm x nn => wordXNN 0x4 x nn
  | .seReg x y => wordXYN 0x5 x y 0x0
  | .ldImm x nn => wordXNN 0x6 x nn
  | .addImm x nn => wordXNN 0x7 x nn
  | .ldReg x y => wordXYN 0x8 x y 0x0
  | .orReg x y => wordXYN 0x8 x y 0x1
  | .andReg x y => wordXYN 0x8 x y 0x2
  | .xorReg x y => wordXYN 0x8 x y 0x3
  | .addReg x y => wordXYN 0x8 x y 0x4
  | .subReg x y => wordXYN 0x8 x y 0x5
  | .shr x y => wordXYN 0x8 x y 0x6
  | .subnReg x y => wordXYN 0x8 x y 0x7
  | .shl x y => wordXYN 0x8 x y 0xE
  | .sneReg x y => wordXYN 0x9 x y 0x0
  | .ldI nnn => wordNNN 0xA nnn
  | .jpV0 nnn => wordNNN 0xB nnn
  | .rnd x nn => wordXNN 0xC x nn
  | .drw x y n => wordXYN 0xD x y n
  | .skp x => wordXNN 0xE x 0x9E
  | .sknp x => wordXNN 0xE x 0xA1
  | .ldVxDT x => wordXNN 0xF x 0x07
  | .ldVxK x => wordXNN 0xF x 0x0A
  | .ldDTVx x => wordXNN 0xF x 0x15
  | .ldSTVx x => wordXNN 0xF x 0x18
  | .addI x => wordXNN 0xF x 0x1E
  | .ldF x => wordXNN 0xF x 0x29
  | .ldB x => wordXNN 0xF x 0x33
  | .storeRegs x => wordXNN 0xF x 0x55
  | .loadRegs x => wordXNN 0xF x 0x65

/-- The two bytes of an instruction as memory holds them, lower address first (R70). -/
def encodeBytes (i : Instr) : List Byte := [highByte (encode i), lowByte (encode i)]

/-- The word of an instruction given by the opcode table's own bit numbers: bit 0 is the least significant bit of
the one 16-bit word, bits at and above nbits are 0. -/
def tableWord (nbits w : Nat) : Word := BitVec.ofNat 16 (w % 2 ^ nbits)

/-- The bytes of that instruction in memory order (big-endian, 20_memory.md R43). -/
def tableBytes (nbits w : Nat) : List Byte := [highByte (tableWord nbits w), lowByte (tableWord nbits w)]

/-- What the decoder reads from an instruction whose bits are w, numbered as spec/opcode_table.json numbers them. No
instruction is longer than 16 bits (R60), so a longer one is none. -/
def decodeTableWord (nbits w : Nat) : Option Instr :=
  if 16 < nbits then none
  else match decode (tableBytes nbits w) with
    | .instr i [] => some i
    | _ => none

end Sys2Proof
end

