-- ==== Sys2Proof/Config.lean ====
section
/-! DEFINITION. What the spec leaves to an implementation or to the host: FONT, KeySelect and the random
byte of spec/00_scope.md R5, each without a body, so that no proof can see what it is. -/

namespace Sys2Proof

/-- The random byte of a `Cycle` to which the host has named none: the n-th free byte
(42_alu.md R113, 60_exceptions.md R177, U6: "a free 8-bit draw at every CXNN, under no law"). Log entry 3. -/
opaque Config.randomByte : Nat → Byte

/-- The parameter FONT (00_scope.md R5, 70_reset_and_hazards.md R191, U7): the 80 bytes that memory 0x000-0x04F holds
after Reset, the glyph of digit d at 5*d. The source gives no bytes; a claim about drawn digits names the bytes it
assumes (`Sys2Proof.Machine.State.holdsFont`). Log entry 2. -/
opaque Config.font : Vector Byte 80

/-- The free part of the parameter KeySelect (00_scope.md R5, 45_timer_key.md R146, U3): a number that depends on
the keypad alone and picks among the pressed keys, wherever two or more are down (`Sys2Proof.Machine.pickKey`).
Every function R5 allows is had by some value of it. Log entry 6. -/
opaque Config.keyChoice : Vector Bool 16 → Nat

end Sys2Proof
end

