-- ==== Sys2Proof/Machine/State.lean ====
section
/-! DEFINITION. The state of the machine as plain data (spec/10_state.md), why a step can stop, and the state after
Reset (70_reset_and_hazards.md R190). -/

namespace Sys2Proof.Machine

/-- Memory as a list of (address, byte) pairs in one canonical form: addresses strictly rising, no entry equal to
what an unlisted address reads as, no address above 0xFFF (`Memory.wf` in Machine/Memory.lean). -/
abbrev Memory := List Host.Cell

/-- The Display Buffer (10_state.md R22): 32 rows of 64 pixels; true is a pixel that is on. -/
abbrev Display := Vector (Vector Bool 64) 32

/-- The causes of a fault (60_exceptions.md R160). -/
inductive FaultCause where
  /-- code 0: no fault recorded -/
  | none
  /-- code 1: raised at fetch and by DXYN, FX33, FX55, FX65 (R162) -/
  | memOob
  /-- code 2: raised by 2NNN (R163) -/
  | stackOverflow
  /-- code 3: raised by 00EE (R165) -/
  | stackUnderflow
  /-- code 4: raised at dispatch (R164) -/
  | illegalInstruction
  /-- code 5: raised by EX9E and EXA1 (R166) -/
  | keyIndex
  deriving DecidableEq, Repr

/-- The access kind of a MEM_OOB fault; `none` for every other cause (60_exceptions.md R161). -/
inductive AccessKind where
  | none
  | fetch
  | read
  | write
  deriving DecidableEq, Repr

/-- The fault record (60_exceptions.md R161): cause 3 bits, kind 2, pc 16, instr 16, addr 17 (C11). -/
structure FaultRecord where
  cause : FaultCause
  kind  : AccessKind
  pc    : Word
  instr : Word
  addr  : BitVec 17
  deriving DecidableEq, Repr

/-- The record with every field zero (70_reset_and_hazards.md R190). -/
def FaultRecord.zero : FaultRecord := ⟨.none, .none, 0, 0, 0⟩

/-- What one `Cycle` returns to the host (00_scope.md R8). -/
inductive CycleOutcome where
  /-- the instruction executed completely; displayTouched is true for 00E0 and DXYN -/
  | done (displayTouched : Bool)
  /-- the instruction was FX0A and no key was pressed -/
  | blocked
  /-- a fault was raised, now or in an earlier cycle -/
  | fault (record : FaultRecord)
  deriving DecidableEq, Repr

/-- Reasons the machine could stop for good. It has none: a fault of this machine is an event whose entry the spec
describes (60_exceptions.md R168, R169), so it is a next state with the fault latch set, and every cycle after it is
a next state too. Nobody raises a Host fault; that is exact, not a choice between safe and unsafe. -/
inductive Fault
  deriving DecidableEq, Repr

/-- Reasons a step could be refused. -/
inductive Refusal where
  /-- The instruction has no meaning in the model yet. Raised only by an arm of `exec` that rejects its instruction by
  name; no arm does, all 34 instructions have their meaning. It would be safe: a refused step proves nothing. -/
  | notModelled (mnemonic : String)
  deriving DecidableEq, Repr

/-- The state (10_state.md section 1), and three fields of the model's own for the operation interface. -/
structure State where
  /-- V0 to VF (R10) -/
  v           : Vector Byte 16
  /-- the index register I (R15) -/
  i           : Word
  /-- the program counter (R12, R13) -/
  pc          : Word
  /-- the delay timer DT (R16) -/
  dt          : Byte
  /-- the sound timer ST (R17) -/
  st          : Byte
  /-- the stack pointer, 0 to 16 (R18) -/
  sp          : Fin 17
  /-- the call stack, not mapped in memory (R19) -/
  stack       : Vector Word 16
  /-- main memory, 4096 bytes (R20) -/
  mem         : Memory
  /-- the Display Buffer (R22) -/
  px          : Display
  /-- the keypad flags K (R21) -/
  keys        : Vector Bool 16
  /-- the fault latch (R24) -/
  faulted     : Bool
  /-- the fault record (R24) -/
  faultRecord : FaultRecord
  /-- MODEL'S OWN: the argument `rand` the host has named for the coming `Cycle` (00_scope.md R7); where it has
  named none, the byte is the free value `Config.randomByte randIndex`. Log entry 3. -/
  rand        : Option Byte
  /-- MODEL'S OWN: the number of the next free byte, counted up by every `Cycle`. Log entry 3. -/
  randIndex   : Nat
  /-- MODEL'S OWN: what the latest `Cycle` returned, none before the first (00_scope.md R8). Log entry 4. -/
  lastOutcome : Option CycleOutcome
  deriving DecidableEq, Repr

/-- The machine right after `Reset` (70_reset_and_hazards.md R190): pc at 0x0200, every other register 0, the call
stack empty, memory at its reset content (nothing listed), all pixels off, no key pressed, no fault latched. -/
def State.reset : State where
  v           := Vector.replicate 16 0
  i           := 0
  pc          := 0x0200
  dt          := 0
  st          := 0
  sp          := 0
  stack       := Vector.replicate 16 0
  mem         := []
  px          := Vector.replicate 32 (Vector.replicate 64 false)
  keys        := Vector.replicate 16 false
  faulted     := false
  faultRecord := FaultRecord.zero
  rand        := none
  randIndex   := 0
  lastOutcome := none

end Sys2Proof.Machine
end

