-- ==== Sys2Proof/Machine/Memory.lean ====
section
/-! DEFINITION. Main memory (spec/20_memory.md): 4096 bytes, each holding its reset byte until something else is
written. Addresses are unbounded integers (R46); the bounds check is made by whoever forms the address
(`Sys2Proof.Machine.State.inBounds`), before the first access. -/

namespace Sys2Proof.Machine

/-- The glyphs of 0 to 3 (R192). -/
def glyphs0to3 : List Byte :=
  [0xF0, 0x90, 0x90, 0x90, 0xF0,  0x20, 0x60, 0x20, 0x20, 0x70,
   0xF0, 0x10, 0xF0, 0x80, 0xF0,  0xF0, 0x10, 0xF0, 0x10, 0xF0]

/-- The glyphs of 4 to 7 (R192). -/
def glyphs4to7 : List Byte :=
  [0x90, 0x90, 0xF0, 0x10, 0x10,  0xF0, 0x80, 0xF0, 0x10, 0xF0,
   0xF0, 0x80, 0xF0, 0x90, 0xF0,  0xF0, 0x10, 0x20, 0x40, 0x40]

/-- The glyphs of 8 to B (R192). -/
def glyphs8toB : List Byte :=
  [0xF0, 0x90, 0xF0, 0x90, 0xF0,  0xF0, 0x90, 0xF0, 0x10, 0xF0,
   0xF0, 0x90, 0xF0, 0x90, 0x90,  0xE0, 0x90, 0xE0, 0x90, 0xE0]

/-- The glyphs of C to F (R192). -/
def glyphsCtoF : List Byte :=
  [0xF0, 0x80, 0x80, 0x80, 0xF0,  0xE0, 0x90, 0x90, 0x90, 0xE0,
   0xF0, 0x80, 0xF0, 0x80, 0xF0,  0xF0, 0x80, 0xF0, 0x80, 0x80]

/-- The default value the spec gives the parameter FONT (70_reset_and_hazards.md R192): 16 glyphs of 5 bytes. No
meaning and no reset value uses it, since "no rule of this spec depends on the glyph values"; it is here for a claim
that assumes it. PRESUMED: the spec itself marks these bytes as general knowledge. Log entry 2. -/
def defaultFont : Vector Byte 80 := ⟨(glyphs0to3 ++ glyphs4to7 ++ glyphs8toB ++ glyphsCtoF).toArray, rfl⟩

/-- What an address that memory does not list reads as: its reset byte, the parameter FONT at 0x000-0x04F and 0 above
(70_reset_and_hazards.md R191). -/
def unlisted (a : Nat) : Byte := if h : a < 80 then Config.font.get ⟨a, h⟩ else 0

/-- The byte at an address (00_scope.md R9, MemRead; the address is in range, see the head of this file). -/
def Memory.read : Memory → Nat → Byte
  | [], a => unlisted a
  | c :: m, a => if c.1 = a then c.2 else Memory.read m a

/-- Memory without any entry for an address. -/
def Memory.without (m : Memory) (a : Nat) : Memory := m.filter (fun c => c.1 != a)

/-- Memory with one more entry, put before the first entry of a higher address. -/
def Memory.insert : Memory → Nat → Byte → Memory
  | [], a, b => [(a, b)]
  | c :: m, a, b => if a < c.1 then (a, b) :: c :: m else c :: Memory.insert m a b

/-- Storing one byte (00_scope.md R9, MemWrite). Writing an address's reset byte removes its entry, so that equal
memories are equal lists. There is no address above 0xFFF (R40): no meaning writes one, and nothing would change. -/
def Memory.write (m : Memory) (a : Nat) (b : Byte) : Memory :=
  if 0xFFF < a then m
  else if b = unlisted a then m.without a
  else (m.without a).insert a b

/-- Storing a list of bytes, the first at the lowest address (R44). -/
def Memory.writeBytes : Memory → Nat → List Byte → Memory
  | m, _, [] => m
  | m, a, b :: bs => Memory.writeBytes (m.write a b) (a + 1) bs

/-- Reading len bytes, the lowest address first (R44). -/
def Memory.readBytes (m : Memory) (a len : Nat) : List Byte := (List.range len).map (fun k => m.read (a + k))

/-- The canonical form: addresses strictly rising from `low` on, all in the address space, no entry that an unlisted
address would read as. -/
def Memory.wfFrom : Nat → Memory → Bool
  | _, [] => true
  | low, c :: m => decide (low ≤ c.1) && decide (c.1 ≤ 0xFFF) && decide (c.2 ≠ unlisted c.1) && Memory.wfFrom (c.1 + 1) m

/-- Memory is in its canonical form. -/
def Memory.wf (m : Memory) : Bool := Memory.wfFrom 0 m

end Sys2Proof.Machine
end

