-- ==== Sys2Proof/Machine/Ops.lean ====
section
/-! DEFINITION. The named operations over the state: registers, the call stack, the skip, the ways a cycle can end
(spec/00_scope.md R8) with the entry into a fault (60_exceptions.md R168), and the parts of a cycle around the
instruction (40_flow.md R80). Control returns from a fault nowhere: only `Reset` leaves it (60_exceptions.md R169). -/

namespace Sys2Proof.Machine

/-- What a meaning answers. -/
abbrev Result := Host.Outcome State Fault Refusal

/-- V[x] (10_state.md R10). -/
def State.reg (s : State) (x : Nibble) : Byte := s.v.get x.toFin

/-- V[x] <- b (10_state.md R10). -/
def State.setReg (s : State) (x : Nibble) (b : Byte) : State := { s with v := s.v.set x.toNat b x.isLt }

/-- I <- w (10_state.md R15). -/
def State.setI (s : State) (w : Word) : State := { s with i := w }

/-- pc <- w (10_state.md R12). -/
def State.setPc (s : State) (w : Word) : State := { s with pc := w }

/-- DT <- b (10_state.md R16). -/
def State.setDT (s : State) (b : Byte) : State := { s with dt := b }

/-- ST <- b (10_state.md R17). -/
def State.setST (s : State) (b : Byte) : State := { s with st := b }

/-- The memory replaced (10_state.md R20). -/
def State.setMem (s : State) (m : Memory) : State := { s with mem := m }

/-- The Display Buffer replaced (10_state.md R22). -/
def State.setPx (s : State) (d : Display) : State := { s with px := d }

/-- The result of a cycle noted for the host (00_scope.md R8). -/
def State.setOutcome (s : State) (o : CycleOutcome) : State := { s with lastOutcome := some o }

/-- The push of 2NNN (10_state.md R18, R19): stack[sp] <- pc, sp <- sp + 1; none when sp = 16. -/
def State.pushReturn (s : State) : Option State :=
  if h : s.sp.val < 16 then
    some { s with stack := s.stack.set s.sp.val s.pc h, sp := ⟨s.sp.val + 1, by omega⟩ }
  else none

/-- The pop of 00EE (10_state.md R18, R19): sp <- sp - 1, pc <- stack[sp]; none when sp = 0. -/
def State.popReturn (s : State) : Option State :=
  if h : 0 < s.sp.val then
    some { s with sp := ⟨s.sp.val - 1, by omega⟩, pc := s.stack[s.sp.val - 1]'(by omega) }
  else none

/-- "skip next instruction" (41_skip.md R96): pc <- pc + 2 on the already advanced counter, when c holds. -/
def State.skipIf (s : State) (c : Bool) : State := if c then s.setPc (s.pc + 2) else s

/-- The pressed keys, lowest index first (10_state.md R21). -/
def State.pressed (s : State) : List (Fin 16) := (List.finRange 16).filter (fun k => s.keys.get k)

/-- K[k], for a key index that is a register's value; none above 15 (41_skip.md R94). -/
def State.key? (s : State) (k : Byte) : Option Bool := if h : k.toNat < 16 then some (s.keys.get ⟨k.toNat, h⟩) else none

/-- The numeric code of a cause (60_exceptions.md R160). -/
def FaultCause.code : FaultCause → BitVec 3
  | .none => 0
  | .memOob => 1
  | .stackOverflow => 2
  | .stackUnderflow => 3
  | .illegalInstruction => 4
  | .keyIndex => 5

/-- The numeric code of an access kind (60_exceptions.md R161). -/
def AccessKind.code : AccessKind → BitVec 2
  | .none => 0
  | .fetch => 1
  | .read => 2
  | .write => 3

/-- The record as one number of 54 bits (10_state.md R24, C11 give the width and the five fields' widths). DESIGN CHOICE:
the packing, the fields in the order of R161 with cause highest and addr lowest; the spec gives none, and the ports of
00_scope.md R7 carry the fields apart. Log entry 13. -/
def FaultRecord.bits (r : FaultRecord) : BitVec 54 := r.cause.code ++ r.kind.code ++ r.pc ++ r.instr ++ r.addr

/-- DONE(display_touched = 0) (00_scope.md R8). -/
def done (s : State) : Result := .next (s.setOutcome (.done false))

/-- DONE(display_touched = 1) (00_scope.md R8). -/
def doneTouched (s : State) : Result := .next (s.setOutcome (.done true))

/-- BLOCKED (45_timer_key.md R146): the advance of pc is undone and nothing else changes. -/
def blocked (s : State) : Result := .next ((s.setPc (s.pc - 2)).setOutcome .blocked)

/-- Fault entry (60_exceptions.md R168): pc has the value it had when the cycle began, which is the record's pc; the
latch is set, the record filled and returned. Nothing else changes, since every check is made before the first
change (20_memory.md R46). -/
def enterFault (s : State) (r : FaultRecord) : Result :=
  .next { s with pc := r.pc, faulted := true, faultRecord := r, lastOutcome := some (.fault r) }

/-- A fault raised by an instruction: `s.pc` is already a + 2, so a is `s.pc - 2` (40_flow.md R80, C8). -/
def raise (s : State) (cause : FaultCause) (kind : AccessKind) (w : Word) (addr : Nat) : Result :=
  enterFault s ⟨cause, kind, s.pc - 2, w, BitVec.ofNat 17 addr⟩

/-- The fetched word, or none when pc + 1 > 0xFFF (40_flow.md R80; 20_memory.md R43, R45: no parity condition). -/
def State.fetch (s : State) : Option Word :=
  if 0xFFF < s.pc.toNat + 1 then none
  else some (wordOf (s.mem.read s.pc.toNat) (s.mem.read (s.pc.toNat + 1)))

/-- pc <- a + 2, "advance BEFORE dispatch" (40_flow.md R80). -/
def State.advance (s : State) : State := s.setPc (s.pc + 2)

/-- The fetch fault (40_flow.md R80): the word could not be read, the address is max(a, 0x1000). -/
def fetchFault (s : State) : Result :=
  enterFault s ⟨.memOob, .fetch, s.pc, 0, BitVec.ofNat 17 (max s.pc.toNat 0x1000)⟩

/-- The fault of an unmatched word, raised at dispatch, after the advance (40_flow.md R80, 60_exceptions.md R164). -/
def illegalFault (s : State) (w : Word) : Result := raise s .illegalInstruction .none w 0

/-- A cycle while the latch is set: nothing changes and the same record is returned (60_exceptions.md R169). -/
def latchedCycle (s : State) : Result := .next (s.setOutcome (.fault s.faultRecord))

/-- The argument `rand` of this cycle (42_alu.md R113): the byte the host named, else a free one. Log entry 3. -/
def State.randByte (s : State) : Byte := s.rand.getD (Config.randomByte s.randIndex)

/-- The end of every cycle: its argument is used up, the next free byte has the next number. Log entry 3. -/
def State.endCycle (s : State) : State := { s with rand := none, randIndex := s.randIndex + 1 }

/-- The end of a cycle, for whatever the cycle answered. -/
def closeCycle : Result → Result
  | .next s => .next s.endCycle
  | .fault r => .fault r
  | .refused r => .refused r

/-- The bytes of one instruction stored where the next cycle fetches, and the latch open so that it fetches. -/
def State.placeWord (s : State) (bytes : List Byte) : State :=
  { s with mem := s.mem.writeBytes s.pc.toNat bytes, faulted := false }

end Sys2Proof.Machine
end

