-- ==== Sys2Proof/Machine/Operands.lean ====
section
/-! DEFINITION. The operand forms (spec/30_encoding.md R63) and the one addressing mode (43_index_memory.md R126).
A register operand is `State.reg`; every immediate is unsigned, at its own width or zero-extended. -/

namespace Sys2Proof.Machine

/-- The register that is also the flag (10_state.md R14). -/
def regF : Nibble := 0xF

/-- zext_16 of a 12-bit immediate (R63). -/
def zext12 (nnn : Imm12) : Word := nnn.setWidth 16

/-- zext_16 of a byte (R63). -/
def zext8 (b : Byte) : Word := b.setWidth 16

/-- EA(k) = I + k on unbounded integers (43_index_memory.md R126). -/
def State.ea (s : State) (k : Nat) : Nat := s.i.toNat + k

/-- Whether every one of the len addresses I .. I + len - 1 is in 0x000-0xFFF; with len = 0 there is no access
(20_memory.md R46). -/
def State.inBounds (s : State) (len : Nat) : Bool := len == 0 || decide (s.ea (len - 1) ≤ 0xFFF)

/-- The lowest out-of-range address: max(I, 0x1000) (43_index_memory.md R126). -/
def State.oobAddr (s : State) : Nat := max s.i.toNat 0x1000

/-- The len bytes from I on (43_index_memory.md R125, 44_display.md R137). -/
def State.loadBytes (s : State) (len : Nat) : List Byte := s.mem.readBytes s.i.toNat len

/-- Bytes stored from I on (43_index_memory.md R123, R124). -/
def State.storeBytes (s : State) (bytes : List Byte) : State := s.setMem (s.mem.writeBytes s.i.toNat bytes)

/-- V[0] .. V[x] in that order (43_index_memory.md R124). -/
def State.regsUpTo (s : State) (x : Nibble) : List Byte := s.v.toList.take (x.toNat + 1)

/-- V[k] <- MemRead(I + k, 1) for k from 0 to x, the registers above x as they were (43_index_memory.md R125). -/
def State.loadRegsUpTo (s : State) (x : Nibble) : State :=
  { s with v := s.v.mapFinIdx (fun k b _ => if k ≤ x.toNat then s.mem.read (s.ea k) else b) }

/-- Hundreds, tens and units of a byte, each as a whole byte (43_index_memory.md R123). -/
def bcdDigits (b : Byte) : List Byte := [b / 100, (b / 10) % 10, b % 10]

/-- The address of the glyph of a digit, V[x] * 5 at 16 bits, not masked (43_index_memory.md R122). -/
def glyphAddr (b : Byte) : Word := zext8 b * 5

end Sys2Proof.Machine
end

