-- ==== Sys2Proof/Machine/Flags.lean ====
section
/-! DEFINITION. Every flag computation (spec/10_state.md R14, 42_alu.md R100) and the two orders in which a
flag-writing instruction makes its two writes (42_alu.md R101). A flag is computed from the operands as they were
before either write. -/

namespace Sys2Proof.Machine

/-- b2n as a register's value: exactly 0 or 1 (00_scope.md R9, 10_state.md R14). -/
def flagByte (c : Bool) : Byte := if c then 1 else 0

/-- Carry of an addition: the exact sum is above 255 (R108). -/
def carryOf (a b : Byte) : Bool := decide (255 < a.toNat + b.toNat)

/-- NO borrow of a subtraction: minuend >= subtrahend (R109, R111). -/
def noBorrow (minuend subtrahend : Byte) : Bool := decide (subtrahend.toNat ≤ minuend.toNat)

/-- The bit a right shift drops (R110). -/
def lowBit (b : Byte) : Byte := b &&& 1

/-- The bit a left shift drops, as 0 or 1 (R112). -/
def highBit (b : Byte) : Byte := flagByte ((b &&& 0x80) != 0)

/-- The order of 8XY4, 8XY5, 8XY7 (R101): the result to V[x] first, the flag to V[0xF] second. -/
def State.resultThenFlag (s : State) (x : Nibble) (result : Byte) (flag : Bool) : State :=
  (s.setReg x result).setReg regF (flagByte flag)

/-- The first write of 8XY6 and 8XYE (R101): the flag to V[0xF]. -/
def State.setFlag (s : State) (flag : Byte) : State := s.setReg regF flag

/-- The order of 8XY6 (R101, R110): the flag first, then the shift on the current V[x]. -/
def State.flagThenShiftRight (s : State) (x : Nibble) : State :=
  let t := s.setFlag (lowBit (s.reg x))
  t.setReg x (t.reg x >>> 1)

/-- The order of 8XYE (R101, R112): the flag first, then the shift on the current V[x]. -/
def State.flagThenShiftLeft (s : State) (x : Nibble) : State :=
  let t := s.setFlag (highBit (s.reg x))
  t.setReg x (t.reg x <<< 1)

end Sys2Proof.Machine
end

