-- ==== Sys2Proof/Machine/Alu.lean ====
section
/-! DEFINITION. Register load and ALU (spec/42_alu.md): 6XNN, 7XNN, 8XY0 to 8XYE, CXNN. Addition and subtraction wrap
modulo 256, shifts are by one (R100). -/

namespace Sys2Proof.Machine

/-- 6XNN (R102). -/
def execLdImm (x : Nibble) (nn : Byte) (s : State) : Result := done (s.setReg x nn)

/-- 7XNN (R103): no flag. -/
def execAddImm (x : Nibble) (nn : Byte) (s : State) : Result := done (s.setReg x (s.reg x + nn))

/-- 8XY0 (R104). -/
def execLdReg (x y : Nibble) (s : State) : Result := done (s.setReg x (s.reg y))

/-- 8XY1 (R105). -/
def execOrReg (x y : Nibble) (s : State) : Result := done (s.setReg x (s.reg x ||| s.reg y))

/-- 8XY2 (R106). -/
def execAndReg (x y : Nibble) (s : State) : Result := done (s.setReg x (s.reg x &&& s.reg y))

/-- 8XY3 (R107). -/
def execXorReg (x y : Nibble) (s : State) : Result := done (s.setReg x (s.reg x ^^^ s.reg y))

/-- 8XY4 (R108). -/
def execAddReg (x y : Nibble) (s : State) : Result :=
  done (s.resultThenFlag x (s.reg x + s.reg y) (carryOf (s.reg x) (s.reg y)))

/-- 8XY5 (R109). -/
def execSubReg (x y : Nibble) (s : State) : Result :=
  done (s.resultThenFlag x (s.reg x - s.reg y) (noBorrow (s.reg x) (s.reg y)))

/-- 8XY6 (R110): y is ignored. -/
def execShr (x _y : Nibble) (s : State) : Result := done (s.flagThenShiftRight x)

/-- 8XY7 (R111): the minuend is V[y]. -/
def execSubnReg (x y : Nibble) (s : State) : Result :=
  done (s.resultThenFlag x (s.reg y - s.reg x) (noBorrow (s.reg y) (s.reg x)))

/-- 8XYE (R112): y is ignored. -/
def execShl (x _y : Nibble) (s : State) : Result := done (s.flagThenShiftLeft x)

/-- CXNN (R113). -/
def execRnd (x : Nibble) (nn : Byte) (s : State) : Result := done (s.setReg x (s.randByte &&& nn))

end Sys2Proof.Machine
end

