-- ==== Sys2Proof/Machine/Flow.lean ====
section
/-! DEFINITION. Control transfer (spec/40_flow.md): 00EE, 1NNN, 2NNN, BNNN. In every meaning `s.pc` is already a + 2,
the address after the instruction (R80). -/

namespace Sys2Proof.Machine

/-- 00EE, return (R84). -/
def execRet (s : State) : Result :=
  match s.popReturn with
  | some t => done t
  | none => raise s .stackUnderflow .none (encode .ret) 0

/-- 1NNN, jump (R82). -/
def execJp (nnn : Imm12) (s : State) : Result := done (s.setPc (zext12 nnn))

/-- 2NNN, call (R83). -/
def execCall (nnn : Imm12) (s : State) : Result :=
  match s.pushReturn with
  | some t => done (t.setPc (zext12 nnn))
  | none => raise s .stackOverflow .none (encode (.call nnn)) 0

/-- BNNN, jump with offset V[0], at 16 bits (R85). -/
def execJpV0 (nnn : Imm12) (s : State) : Result := done (s.setPc (zext8 (s.reg 0) + zext12 nnn))

end Sys2Proof.Machine
end

