-- ==== Sys2Proof/Machine/Index.lean ====
section
/-! DEFINITION. Index register and memory transfer (spec/43_index_memory.md): ANNN, FX1E, FX29, FX33, FX55, FX65. Each
memory instruction checks all its addresses before it changes anything and leaves I as it was (R126). -/

namespace Sys2Proof.Machine

/-- ANNN (R120). -/
def execLdI (nnn : Imm12) (s : State) : Result := done (s.setI (zext12 nnn))

/-- FX1E (R121): a 16-bit sum that wraps, no flag. -/
def execAddI (x : Nibble) (s : State) : Result := done (s.setI (s.i + zext8 (s.reg x)))

/-- FX29 (R122). -/
def execLdF (x : Nibble) (s : State) : Result := done (s.setI (glyphAddr (s.reg x)))

/-- FX33 (R123). -/
def execLdB (x : Nibble) (s : State) : Result :=
  if s.inBounds 3 then done (s.storeBytes (bcdDigits (s.reg x)))
  else raise s .memOob .write (encode (.ldB x)) s.oobAddr

/-- FX55 (R124): x names the LAST register stored. -/
def execStoreRegs (x : Nibble) (s : State) : Result :=
  if s.inBounds (x.toNat + 1) then done (s.storeBytes (s.regsUpTo x))
  else raise s .memOob .write (encode (.storeRegs x)) s.oobAddr

/-- FX65 (R125): x names the LAST register loaded. -/
def execLoadRegs (x : Nibble) (s : State) : Result :=
  if s.inBounds (x.toNat + 1) then done (s.loadRegsUpTo x)
  else raise s .memOob .read (encode (.loadRegs x)) s.oobAddr

end Sys2Proof.Machine
end

