-- ==== Sys2Proof/Machine/Screen.lean ====
section
/-! DEFINITION. The Bit Accessor, the Display Buffer's two operations, and 00E0 and DXYN (spec/44_display.md). -/

namespace Sys2Proof.Machine

/-- The Bit Accessor (R130): Bit(v, k) = (v >> k) & 1, k = 0 the least significant bit. -/
def bitOf (v : Byte) (k : Fin 8) : Bool := (v >>> k.val) &&& 1 == 1

/-- px[r][c] (10_state.md R22). -/
def Display.get (d : Display) (r : Fin 32) (c : Fin 64) : Bool := (Vector.get d r).get c

/-- px[r][c] <- b (10_state.md R22). -/
def Display.put (d : Display) (r : Fin 32) (c : Fin 64) (b : Bool) : Display :=
  Vector.set d r.val ((Vector.get d r).set c.val b c.isLt) r.isLt

/-- clear() (R132): every pixel off. -/
def Display.cleared : Display := Vector.replicate 32 (Vector.replicate 64 false)

/-- A row number reduced modulo 32 (R133, R135). -/
def wrapRow (r : Nat) : Fin 32 := ⟨r % 32, Nat.mod_lt _ (by decide)⟩

/-- A column number reduced modulo 64 (R133, R135). -/
def wrapCol (c : Nat) : Fin 64 := ⟨c % 64, Nat.mod_lt _ (by decide)⟩

/-- One sprite bit laid on one pixel (R133): new = old xor bit; a pixel that goes from 1 to 0 is a collision. The
pair is the buffer and the collision so far. -/
def plot (acc : Display × Bool) (r : Fin 32) (c : Fin 64) (b : Bool) : Display × Bool :=
  let old := acc.1.get r c
  (acc.1.put r c (old ^^ b), acc.2 || (old && !(old ^^ b)))

/-- The bit of sprite column i, most significant first: Bit(byte, 7 - i) (R130, R133). -/
def spriteBit (byte : Byte) (i : Fin 8) : Bool := bitOf byte (7 - i)

/-- The inner loop of R133: sprite columns 0 to 7 of one byte on one row. -/
def drawByte (x0 : Nat) (r : Fin 32) (byte : Byte) (acc : Display × Bool) : Display × Bool :=
  (List.finRange 8).foldl (fun acc i => plot acc r (wrapCol (x0 + i.val)) (spriteBit byte i)) acc

/-- The outer loop of R133 from sprite row j on. -/
def drawRows (x0 y0 : Nat) : Nat → List Byte → Display × Bool → Display × Bool
  | _, [], acc => acc
  | j, byte :: bytes, acc => drawRows x0 y0 (j + 1) bytes (drawByte x0 (wrapRow (y0 + j)) byte acc)

/-- draw_sprite(x0, y0, bytes) (R133): the new buffer and the collision flag. -/
def drawSprite (d : Display) (x0 y0 : Byte) (bytes : List Byte) : Display × Bool :=
  drawRows x0.toNat y0.toNat 0 bytes (d, false)

/-- 00E0 (R136). -/
def execCls (s : State) : Result := doneTouched (s.setPx Display.cleared)

/-- The draw of DXYN once its bytes are in range (R137): V[x] and V[y] are read before VF is written. -/
def State.draw (s : State) (x y : Nibble) (bytes : List Byte) : State :=
  let out := drawSprite s.px (s.reg x) (s.reg y) bytes
  (s.setPx out.1).setReg regF (flagByte out.2)

/-- DXYN (R137). -/
def execDrw (x y n : Nibble) (s : State) : Result :=
  if s.inBounds n.toNat then doneTouched (s.draw x y (s.loadBytes n.toNat))
  else raise s .memOob .read (encode (.drw x y n)) s.oobAddr

end Sys2Proof.Machine
end

