-- ==== Sys2Proof/Machine/Skip.lean ====
section
/-! DEFINITION. The conditional skips (spec/41_skip.md): 3XNN, 4XNN, 5XY0, 9XY0, EX9E, EXA1. -/

namespace Sys2Proof.Machine

/-- 3XNN (R90). -/
def execSeImm (x : Nibble) (nn : Byte) (s : State) : Result := done (s.skipIf (s.reg x == nn))

/-- 4XNN (R91). -/
def execSneImm (x : Nibble) (nn : Byte) (s : State) : Result := done (s.skipIf (s.reg x != nn))

/-- 5XY0 (R92). -/
def execSeReg (x y : Nibble) (s : State) : Result := done (s.skipIf (s.reg x == s.reg y))

/-- 9XY0 (R93). -/
def execSneReg (x y : Nibble) (s : State) : Result := done (s.skipIf (s.reg x != s.reg y))

/-- EX9E (R94): the key index is the VALUE of V[x]. -/
def execSkp (x : Nibble) (s : State) : Result :=
  match s.key? (s.reg x) with
  | some down => done (s.skipIf down)
  | none => raise s .keyIndex .none (encode (.skp x)) (s.reg x).toNat

/-- EXA1 (R95). -/
def execSknp (x : Nibble) (s : State) : Result :=
  match s.key? (s.reg x) with
  | some down => done (s.skipIf (!down))
  | none => raise s .keyIndex .none (encode (.sknp x)) (s.reg x).toNat

end Sys2Proof.Machine
end

