-- ==== Sys2Proof/Machine/TimerKey.lean ====
section
/-! DEFINITION. Timer and key-wait instructions (spec/45_timer_key.md): FX07, FX0A, FX15, FX18. -/

namespace Sys2Proof.Machine

/-- KeySelect over the pressed keys `first :: rest` (R146): one of them, whichever; with one key down, that key. The
choice is a free number. Log entry 6. -/
def pickKey (first : Fin 16) (rest : List (Fin 16)) (choice : Nat) : Fin 16 :=
  match rest with
  | [] => first
  | _ :: _ => (first :: rest).getD (choice % (rest.length + 1)) first

/-- A key number as a register's value, 0 to 15 (R146). -/
def keyByte (k : Fin 16) : Byte := BitVec.ofNat 8 k.val

/-- FX07 (R145). -/
def execLdVxDT (x : Nibble) (s : State) : Result := done (s.setReg x s.dt)

/-- FX0A (R146): BLOCKED when no key is pressed, else the selected key. -/
def execLdVxK (x : Nibble) (s : State) : Result :=
  match s.pressed with
  | [] => blocked s
  | k :: ks => done (s.setReg x (keyByte (pickKey k ks (Config.keyChoice s.keys))))

/-- FX15 (R147). -/
def execLdDTVx (x : Nibble) (s : State) : Result := done (s.setDT (s.reg x))

/-- FX18 (R148). -/
def execLdSTVx (x : Nibble) (s : State) : Result := done (s.setST (s.reg x))

end Sys2Proof.Machine
end

