-- ==== Sys2Proof/Machine/Step.lean ====
section
/-! DEFINITION. One `Cycle` (spec/40_flow.md R80): the latch check, the fetch check, decode, the advance of pc BEFORE
dispatch, the dispatch check, the instruction. -/

namespace Sys2Proof.Machine

/-- The cycle up to what it answers, in the order of R80 and 60_exceptions.md R167. -/
def cycleBody (s : State) : Host.Outcome State Fault Refusal :=
  if s.faulted then latchedCycle s
  else match s.fetch with
    | none => fetchFault s
    | some w =>
      match decodeWord w with
      | none => illegalFault s.advance w
      | some i => exec i s.advance

/-- One step of the machine: one `Cycle`, whose argument `rand` is then used up. -/
def step (s : State) : Host.Outcome State Fault Refusal := closeCycle (cycleBody s)

/-- s with the instruction whose bits are w (numbered as spec/opcode_table.json numbers them) stored at pc, where the
next cycle fetches it; the fault latch is open, since a latched machine fetches nothing. -/
def State.withFetchWord (s : State) (nbits w : Nat) : State := s.placeWord (tableBytes nbits w)

end Sys2Proof.Machine
end

