-- ==== Sys2Proof/Machine/Operations.lean ====
section
/-! DEFINITION. The interface of the core: six atomic operations, issued by the host one at a time (spec/00_scope.md
R7). None but `Cycle` depends on the fault latch (60_exceptions.md R169, R173). -/

namespace Sys2Proof.Machine

/-- The operations of R7 with their arguments, each of the width R7 gives it. -/
inductive Operation where
  /-- 70_reset_and_hazards.md R190 -/
  | reset
  /-- 70_reset_and_hazards.md R194; offset 0..4095 -/
  | load (offset : BitVec 12) (bytes : List Byte)
  /-- 60_exceptions.md R174; k 0..15 -/
  | setKey (k : Nibble) (pressed : Bool)
  /-- 60_exceptions.md R172 -/
  | tick
  /-- 40_flow.md R80 -/
  | cycle (rand : Byte)
  /-- 60_exceptions.md R175 -/
  | readDisplay
  deriving DecidableEq, Repr

/-- What an operation returns to the host (R7). -/
inductive Reply where
  | none
  | ok
  | refused
  | outcome (o : Option CycleOutcome)
  | display (px : Display)
  deriving DecidableEq, Repr

/-- `Reset` (R190): every piece of state to its reset value. The number of the next free byte is no piece of the
machine's state and goes on, or a second run would see the free bytes of the first again. Log entry 3. -/
def opReset (s : State) : State := { State.reset with randIndex := s.randIndex }

/-- Whether a load fits: offset + L <= 4096 (R194). -/
def loadFits (offset : BitVec 12) (bytes : List Byte) : Bool := decide (offset.toNat + bytes.length ≤ 4096)

/-- `Load` (R194): the bytes from offset on; nothing is written when they do not fit. -/
def opLoad (offset : BitVec 12) (bytes : List Byte) (s : State) : State :=
  if loadFits offset bytes then s.setMem (s.mem.writeBytes offset.toNat bytes) else s

/-- `SetKey` (R174). -/
def opSetKey (k : Nibble) (pressed : Bool) (s : State) : State := { s with keys := s.keys.set k.toNat pressed k.isLt }

/-- One timer's part of `Tick` (R172): toward zero, floor at zero. -/
def tickDown (b : Byte) : Byte := if b = 0 then 0 else b - 1

/-- `Tick` (R172). -/
def opTick (s : State) : State := { s with dt := tickDown s.dt, st := tickDown s.st }

/-- `Cycle(rand)` (R80): one step with the host's byte. -/
def opCycle (rand : Byte) (s : State) : Host.Outcome State Fault Refusal := step { s with rand := some rand }

/-- `ReadDisplay` (R175): the grid as it stands. -/
def opReadDisplay (s : State) : Display := s.px

/-- The bit of the port `display` at position p: pixel (row p / 64, column p mod 64) (R7, 10_state.md R22). -/
def displayPortBit (d : Display) (p : Fin 2048) : Bool := (Vector.get d ⟨p.val / 64, by omega⟩).get ⟨p.val % 64, by omega⟩

/-- The port `outcome` (R7): 0 DONE, 1 BLOCKED, 2 FAULT. -/
def CycleOutcome.port : CycleOutcome → BitVec 2
  | .done _ => 0
  | .blocked => 1
  | .fault _ => 2

/-- The port `display_touched` (R7): the bit of DONE (R8). DESIGN CHOICE: 0 for BLOCKED and FAULT, a faulting DXYN
included, where R7, R8 and 60_exceptions.md R175 define no bit. Log entry 12. -/
def CycleOutcome.displayTouched : CycleOutcome → Bool
  | .done t => t
  | .blocked => false
  | .fault _ => false

/-- A cycle's answer paired with the outcome it returns. -/
def withOutcome : Host.Outcome State Fault Refusal → Host.Outcome (State × Reply) Fault Refusal
  | .next t => .next (t, .outcome t.lastOutcome)
  | .fault r => .fault r
  | .refused r => .refused r

/-- One operation of the host (R7). -/
def operate (op : Operation) (s : State) : Host.Outcome (State × Reply) Fault Refusal :=
  match op with
  | .reset => .next (opReset s, .none)
  | .load offset bytes => .next (opLoad offset bytes s, if loadFits offset bytes then .ok else .refused)
  | .setKey k pressed => .next (opSetKey k pressed s, .none)
  | .tick => .next (opTick s, .none)
  | .cycle rand => withOutcome (opCycle rand s)
  | .readDisplay => .next (s, .display (opReadDisplay s))

end Sys2Proof.Machine
end

