-- ==== Sys2Proof/Safety.lean ====
section
/-! DEFINITION. The terms claims are stated in: when two states are one machine, the invariants of spec/10_state.md R26,
the states an operation of the host can reach, a run that is safe, and the end of a run. -/

namespace Sys2Proof.Machine

/-- The two states agree in everything the spec gives the machine, the fault latch included; they may differ in the
model's own fields of the operation interface (log entries 3 and 4). -/
def State.sameMachine (s t : State) : Prop :=
  t = { s with rand := t.rand, randIndex := t.randIndex, lastOutcome := t.lastOutcome }

/-- The two states agree in everything the spec gives the machine but the fault latch (60_exceptions.md R168: mem, V,
I, pc, sp, stack, DT, ST, px and K). -/
def State.sameButLatch (s t : State) : Prop :=
  t = { s with faulted := t.faulted, faultRecord := t.faultRecord,
               rand := t.rand, randIndex := t.randIndex, lastOutcome := t.lastOutcome }

/-- From s to t, V[x] takes the value b and nothing else changes; the cycle's outcome is DONE, display not touched. -/
def State.writesOnly (s t : State) (x : Nibble) (b : Byte) : Prop :=
  t = { s with v := t.v, lastOutcome := some (.done false) } ∧ t.reg x = b ∧ ∀ k, k ≠ x → t.reg k = s.reg k

/-- From s to t, VF takes the value flag, V[x] the value result where x is not F, and nothing else changes. -/
def State.writesWithFlag (s t : State) (x : Nibble) (result flag : Byte) : Prop :=
  t = { s with v := t.v, lastOutcome := some (.done false) } ∧ t.reg regF = flag ∧
    (x ≠ regF → t.reg x = result) ∧ ∀ k, k ≠ x → k ≠ regF → t.reg k = s.reg k

/-- From s to t, pc advances by 2 more exactly when c holds and nothing else changes (41_skip.md R96). -/
def State.skips (s t : State) (c : Prop) : Prop :=
  t = { s with pc := t.pc, lastOutcome := some (.done false) } ∧ (c → t.pc = s.pc + 2) ∧ (¬ c → t.pc = s.pc)

/-- From s to t, the fault with record r is entered and nothing else changes (60_exceptions.md R168). -/
def State.entersFault (s t : State) (r : FaultRecord) : Prop :=
  t = { s with pc := r.pc, faulted := true, faultRecord := r, lastOutcome := some (.fault r) }

/-- The word of the nibbles op, x, y, n as a number, the first nibble highest (30_encoding.md R61, R70). -/
def formulaXYN (op x y n : Nibble) : Word :=
  BitVec.ofNat 16 (op.toNat * 0x1000 + x.toNat * 0x100 + y.toNat * 0x10 + n.toNat)

/-- The word of op, x and nn as a number (30_encoding.md R61, R70). -/
def formulaXNN (op x : Nibble) (nn : Byte) : Word := BitVec.ofNat 16 (op.toNat * 0x1000 + x.toNat * 0x100 + nn.toNat)

/-- The word of op and nnn as a number (30_encoding.md R61, R70). -/
def formulaNNN (op : Nibble) (nnn : Imm12) : Word := BitVec.ofNat 16 (op.toNat * 0x1000 + nnn.toNat)

/-- Some 1 bit of the sprite lands on the pixel at row r, column c: sprite row j at (y0 + j) mod 32, sprite column i at
(x0 + i) mod 64, column i being bit 7 - i of the row's byte (44_display.md R130, R133). -/
def spriteLights (x0 y0 : Byte) (bytes : List Byte) (r : Fin 32) (c : Fin 64) : Prop :=
  ∃ j i : Nat, j < bytes.length ∧ i < 8 ∧ r.val = (y0.toNat + j) % 32 ∧ c.val = (x0.toNat + i) % 64 ∧
    (bytes.getD j 0).toNat / 2 ^ (7 - i) % 2 = 1

/-- What a fault record can hold, cause by cause (60_exceptions.md R160, R161). -/
def FaultRecord.consistent (r : FaultRecord) : Prop :=
  match r.cause with
  | .none => r = FaultRecord.zero
  | .memOob => r.kind ≠ .none ∧ 0x1000 ≤ r.addr.toNat ∧ (r.kind = .fetch → r.instr = 0 ∧ 0xFFE < r.pc.toNat)
  | .keyIndex => r.kind = .none ∧ 16 ≤ r.addr.toNat ∧ r.addr.toNat ≤ 255
  | .stackOverflow => r.kind = .none ∧ r.addr = 0
  | .stackUnderflow => r.kind = .none ∧ r.addr = 0
  | .illegalInstruction => r.kind = .none ∧ r.addr = 0

/-- The latch and its record agree: an open latch has the zero record, a set one a cause and the address pc stands
at (10_state.md R24, 60_exceptions.md R161, R168). -/
def State.latchConsistent (s : State) : Prop :=
  s.faultRecord.consistent ∧
    (s.faulted = false → s.faultRecord = FaultRecord.zero) ∧
    (s.faulted = true → s.faultRecord.cause ≠ .none ∧ s.faultRecord.pc = s.pc)

/-- The invariants of 10_state.md R26 (a), (b), (d), with the canonical form of memory and the consistency of the
latch. R26 (c) is in the types of State. -/
def State.Inv (s : State) : Prop :=
  s.sp.val ≤ 16 ∧ s.pc.toNat ≤ 0x10FE ∧ (∀ k : Fin 16, k.val < s.sp.val → (s.stack.get k).toNat ≤ 0x1000) ∧
    s.mem.wf = true ∧ s.latchConsistent

/-- The states the operations of 00_scope.md R7 reach from `Reset`, programs being loaded by `Load`. -/
inductive Reachable : State → Prop where
  | reset : Reachable State.reset
  | operation {s t : State} {op : Operation} {r : Reply} :
      Reachable s → operate op s = .next (t, r) → Reachable t

/-- A safe state: no fault is latched. "A faulted state is never a successful end of a run" (60_exceptions.md R169). -/
def State.safe (s : State) : Prop := s.faulted = false

/-- Memory 0x000-0x04F holds the font: the premise by which a claim about drawn digits names the FONT it assumes
(70_reset_and_hazards.md R192, U7). -/
def State.holdsFont (s : State) (font : Vector Byte 80) : Prop := ∀ k : Fin 80, s.mem.read k.val = font.get k

/-- The end of a run (70_reset_and_hazards.md R200): no fault, and pc rests on a jump to its own address. The spec
gives this as the customary definition of the host, not as a state of the core. -/
def State.endOfRun (s : State) : Prop :=
  s.safe ∧ s.pc.toNat ≤ 0xFFE ∧
    wordOf (s.mem.read s.pc.toNat) (s.mem.read (s.pc.toNat + 1)) = 0x1000 ||| s.pc

end Sys2Proof.Machine

namespace Sys2Proof

open Machine

/-- The general registers an instruction may write (10_state.md R11, R14). -/
def Instr.writesReg : Instr → Nibble → Bool
  | .ldImm x _, k => k == x
  | .addImm x _, k => k == x
  | .ldReg x _, k => k == x
  | .orReg x _, k => k == x
  | .andReg x _, k => k == x
  | .xorReg x _, k => k == x
  | .addReg x _, k => k == x || k == regF
  | .subReg x _, k => k == x || k == regF
  | .shr x _, k => k == x || k == regF
  | .subnReg x _, k => k == x || k == regF
  | .shl x _, k => k == x || k == regF
  | .rnd x _, k => k == x
  | .drw _ _ _, k => k == regF
  | .ldVxDT x, k => k == x
  | .ldVxK x, k => k == x
  | .loadRegs x, k => decide (k.toNat ≤ x.toNat)
  | .cls, _ => false
  | .ret, _ => false
  | .jp _, _ => false
  | .call _, _ => false
  | .seImm _ _, _ => false
  | .sneImm _ _, _ => false
  | .seReg _ _, _ => false
  | .sneReg _ _, _ => false
  | .ldI _, _ => false
  | .jpV0 _, _ => false
  | .skp _, _ => false
  | .sknp _, _ => false
  | .ldDTVx _, _ => false
  | .ldSTVx _, _ => false
  | .addI _, _ => false
  | .ldF _, _ => false
  | .ldB _, _ => false
  | .storeRegs _, _ => false

/-- The addresses an instruction stores to, from the state it is executed in: EA(k) for k below the number of bytes
it stores (20_memory.md R47, 43_index_memory.md R123, R124, R126). -/
def Instr.storesAt (i : Instr) (s : State) (a : Nat) : Prop :=
  match i with
  | .ldB _ => ∃ k, k < 3 ∧ a = s.ea k
  | .storeRegs x => ∃ k, k ≤ x.toNat ∧ a = s.ea k
  | _ => False

end Sys2Proof
end

