-- ==== Sys2Proof/Certificates/Slice0/Obligations.lean ====
section
/-! DEFINITION. The statements for the provers. Each says in its docstring which rule of spec/ it formalises. In every
statement about `exec`, the state is the one after the advance: its pc is a + 2, a being the instruction's address
(spec/40_flow.md R80). -/

open Sys2Proof Sys2Proof.Machine

/-! Encoding -/

/-- Every instruction, with every operand at every value, is read back from its own word (30_encoding.md R62, R64,
R70). -/
def Obligations.DecodingAnEncodedInstructionGivesItBack : Prop :=
  ∀ i : Instr, decodeWord (encode i) = some i ∧
    ∀ rest : List Byte, decode (encodeBytes i ++ rest) = .instr i rest

/-- A word that decodes is the word of the instruction it decodes to: each legal word has one meaning (R64, R70). -/
def Obligations.ADecodedWordIsItsInstructionsWord : Prop :=
  ∀ (w : Word) (i : Instr), decodeWord w = some i → encode i = w

/-- A word decodes exactly when a row of the opcode map selects it, and then to an instruction of that row; every
other word is illegal (R64, R67). -/
def Obligations.DecoderFollowsTheOpcodeMap : Prop :=
  (∀ w : Word, decodeWord w = none ↔ legal w = false) ∧
    ∀ (w : Word) (i : Instr), decodeWord w = some i → i.row ∈ rows ∧ i.row.selects w = true

/-- "The rows are pairwise disjoint": no word is selected by two rows (R64). -/
def Obligations.OpcodeRowsArePairwiseDisjoint : Prop :=
  ∀ (w : Word) (r r' : Row), r ∈ rows → r' ∈ rows → r.selects w = true → r'.selects w = true → r = r'

/-- The decoder's six fields by the formulas of R62, on every pair of bytes, and the redundancy of the six. -/
def Obligations.DecodedFieldsFollowTheFormulas : Prop :=
  ∀ byte0 byte1 : Byte,
    let f := decodeFields byte0 byte1
    f.op.toNat = byte0.toNat / 16 ∧ f.x.toNat = byte0.toNat % 16 ∧ f.y.toNat = byte1.toNat / 16 ∧
    f.n.toNat = byte1.toNat % 16 ∧ f.nn = byte1 ∧ f.nnn.toNat = byte0.toNat % 16 * 256 + byte1.toNat ∧
    f.wellFormed = true ∧ (wordOf byte0 byte1).toNat = f.op.toNat * 0x1000 + f.nnn.toNat

/-- Encoding from fields, the bytes in memory, and that decoding and then encoding any word gives it back (R70). -/
def Obligations.EncodingFromFieldsFollowsTheFormulas : Prop :=
  (∀ op x y n : Nibble, wordXYN op x y n = formulaXYN op x y n) ∧
  (∀ (op x : Nibble) (nn : Byte), wordXNN op x nn = formulaXNN op x nn) ∧
  (∀ (op : Nibble) (nnn : Imm12), wordNNN op nnn = formulaNNN op nnn) ∧
  (∀ w : Word, (highByte w).toNat = w.toNat / 256 ∧ (lowByte w).toNat = w.toNat % 256) ∧
  ∀ w : Word,
    let f := decodeFields (highByte w) (lowByte w)
    formulaXYN f.op f.x f.y f.n = w ∧ formulaXNN f.op f.x f.nn = w ∧ formulaNNN f.op f.nnn = w

/-- Words written out from the encodings of R64 and 95_test_vectors.md decode to what they stand for; some decode to
nothing. -/
def Obligations.SampleWordsDecodeAsTheSpecSays : Prop :=
  decodeWord 0xABCD = some (.ldI 0xBCD) ∧ decodeWord 0x00EE = some .ret ∧
  decodeWord 0x8ABE = some (.shl 0xA 0xB) ∧ decodeWord 0xD01F = some (.drw 0x0 0x1 0xF) ∧
  decodeWord 0xF365 = some (.loadRegs 0x3) ∧ decodeWord 0xE4A1 = some (.sknp 0x4) ∧
  decodeWord 0x0000 = none ∧ decodeWord 0x5AB1 = none ∧ decodeWord 0xFFFF = none

/-! The machine cycle -/

/-- A step runs the decoded instruction: when no fault is latched and the two bytes at pc decode to i, the step is i
executed after pc has been advanced by 2, and then the end of the cycle (40_flow.md R80). The end of the cycle is
the model's own: it uses up the argument `rand` (log entry 3). -/
def Obligations.StepRunsTheDecodedInstruction : Prop :=
  ∀ (s : State) (i : Instr) (rest : List Byte), s.faulted = false → s.pc.toNat + 1 ≤ 0xFFF →
    decode (s.mem.read s.pc.toNat :: s.mem.read (s.pc.toNat + 1) :: rest) = .instr i rest →
    step s = closeCycle (exec i { s with pc := s.pc + 2 }) ∧
    ∀ t, exec i { s with pc := s.pc + 2 } = .next t →
      step s = .next { t with rand := none, randIndex := s.randIndex + 1 }

/-- "Instruction fetch is big-endian": the byte at the lower address is the high byte (20_memory.md R43). -/
def Obligations.FetchIsBigEndian : Prop :=
  ∀ s : State, s.pc.toNat + 1 ≤ 0xFFF →
    ∃ w, s.fetch = some w ∧
      w.toNat = (s.mem.read s.pc.toNat).toNat * 256 + (s.mem.read (s.pc.toNat + 1)).toNat

/-- A fetch past the end of memory faults with kind FETCH, instr 0 and the address max(a, 0x1000) (R80, R162). The
state kept by a fault and the record are the spec's own decisions D5 to D8 (log entry 5). -/
def Obligations.FetchPastMemoryFaults : Prop :=
  ∀ s : State, s.faulted = false → 0xFFF < s.pc.toNat + 1 →
    ∃ t, step s = .next t ∧ s.sameButLatch t ∧ t.faulted = true ∧
      t.faultRecord = ⟨.memOob, .fetch, s.pc, 0, BitVec.ofNat 17 (max s.pc.toNat 0x1000)⟩ ∧
      t.lastOutcome = some (.fault t.faultRecord)

/-- A word no row selects raises ILLEGAL_INSTRUCTION with its address and its raw bytes (R67, R164). The state kept
and the record are the spec's own decisions D5 to D8 (log entry 5). -/
def Obligations.IllegalWordFaults : Prop :=
  ∀ (s : State) (w : Word), s.faulted = false → s.fetch = some w → legal w = false →
    ∃ t, step s = .next t ∧ s.sameButLatch t ∧ t.faulted = true ∧
      t.faultRecord = ⟨.illegalInstruction, .none, s.pc, w, 0⟩ ∧ t.lastOutcome = some (.fault t.faultRecord)

/-- Once the latch is set, a cycle changes no state and returns the same record (R24, R26 (e), R169). The latch is the
spec's own decision D6. -/
def Obligations.ALatchedCycleChangesNothing : Prop :=
  ∀ s : State, s.faulted = true →
    ∃ t, step s = .next t ∧ s.sameMachine t ∧ t.lastOutcome = some (.fault s.faultRecord)

/-- A cycle that raises a fault leaves everything but the latch as it was when the cycle began, pc included, and
records that pc (R168, R161; the spec's own decisions D5, D6, D8). -/
def Obligations.AFaultingCycleLeavesOnlyTheLatch : Prop :=
  ∀ s t : State, step s = .next t → s.faulted = false → t.faulted = true →
    s.sameButLatch t ∧ t.faultRecord.cause ≠ .none ∧ t.faultRecord.pc = s.pc ∧
      t.lastOutcome = some (.fault t.faultRecord)

/-- Every cycle of every state gives a next state: the machine never stops and refuses no instruction. That a fault is a
next state, with the latch set, and not a stop of the machine is the model's reading of R168 and R169 (log entry 5,
DEDUCED; the latch and the state a fault leaves are the spec's own decisions D5, D6). -/
def Obligations.EveryCycleGivesANextState : Prop :=
  (∀ (i : Instr) (s : State), ∃ t, exec i s = .next t) ∧ ∀ s : State, ∃ t, step s = .next t

/-! Control transfer, and the loads of nnn -/

/-- 1NNN, BNNN and ANNN complete on every state: pc or I takes the value R82, R85, R120 give it, nothing else changes.
The sum of BNNN is exact, never reduced to 12 bits. -/
def Obligations.JumpsAndIndexLoadTakeTheirTargets : Prop :=
  ∀ (s : State) (nnn : Imm12),
    (encode (.jp nnn) = formulaNNN 0x1 nnn ∧ ∃ t, exec (.jp nnn) s = .next t ∧
      t = { s with pc := t.pc, lastOutcome := some (.done false) } ∧ t.pc.toNat = nnn.toNat) ∧
    (encode (.jpV0 nnn) = formulaNNN 0xB nnn ∧ ∃ t, exec (.jpV0 nnn) s = .next t ∧
      t = { s with pc := t.pc, lastOutcome := some (.done false) } ∧
      t.pc.toNat = (s.reg 0).toNat + nnn.toNat) ∧
    (encode (.ldI nnn) = formulaNNN 0xA nnn ∧ ∃ t, exec (.ldI nnn) s = .next t ∧
      t = { s with i := t.i, lastOutcome := some (.done false) } ∧ t.i.toNat = nnn.toNat)

/-- 2NNN with room on the call stack completes: the advanced pc is pushed, sp counts up, pc is nnn, nothing else
changes (R83). -/
def Obligations.CallPushesTheReturnAddress : Prop :=
  ∀ (s : State) (nnn : Imm12), s.sp.val < 16 →
    ∃ t, exec (.call nnn) s = .next t ∧
      t = { s with pc := t.pc, sp := t.sp, stack := t.stack, lastOutcome := some (.done false) } ∧
      t.pc.toNat = nnn.toNat ∧ t.sp.val = s.sp.val + 1 ∧
      ∀ k : Fin 16, t.stack.get k = if k.val = s.sp.val then s.pc else s.stack.get k

/-- 00EE with sp = k + 1 completes: sp is k, pc is stack[k], the stack and all else unchanged (R84). -/
def Obligations.ReturnPopsThePushedAddress : Prop :=
  ∀ (s : State) (k : Fin 16), s.sp.val = k.val + 1 →
    ∃ t, exec .ret s = .next t ∧ t = { s with pc := t.pc, sp := t.sp, lastOutcome := some (.done false) } ∧
      t.sp.val = k.val ∧ t.pc = s.stack.get k

/-- 2NNN at sp = 16 raises STACK_OVERFLOW, 00EE at sp = 0 STACK_UNDERFLOW; nothing but the latch changes and pc is the
instruction's own address (R83, R84, R163, R165; what a fault leaves is the spec's own decision D5, log entry 5). -/
def Obligations.StackLimitsFault : Prop :=
  ∀ (s : State) (nnn : Imm12),
    (s.sp.val = 16 → ∃ t, exec (.call nnn) s = .next t ∧
      s.entersFault t ⟨.stackOverflow, .none, s.pc - 2, formulaNNN 0x2 nnn, 0⟩) ∧
    (s.sp.val = 0 → ∃ t, exec .ret s = .next t ∧
      s.entersFault t ⟨.stackUnderflow, .none, s.pc - 2, 0x00EE, 0⟩)

/-- Call and return balance (R86): after a call executed with sp = d, a return executed at depth d + 1 with the pushed
entry not overwritten since restores pc to the address after the call and sp to d; and the entry is overwritten only by
a call executed with sp = d. -/
def Obligations.CallAndReturnBalance : Prop :=
  (∀ (s t u : State) (nnn : Imm12) (d : Fin 16), s.sp.val = d.val → exec (.call nnn) s = .next t →
    u.sp.val = d.val + 1 → u.stack.get d = t.stack.get d →
    ∃ w, exec .ret u = .next w ∧ w.pc = s.pc ∧ w.sp = s.sp) ∧
  ∀ (i : Instr) (s t : State) (d : Fin 16), exec i s = .next t → t.stack.get d ≠ s.stack.get d →
    (∃ nnn, i = .call nnn) ∧ s.sp.val = d.val

/-! Conditional skips -/

/-- 3XNN, 4XNN, 5XY0 and 9XY0 complete on every state: pc advances by 2 more exactly when the condition holds, nothing
else changes (R90 to R93). -/
def Obligations.RegisterSkipsFollowTheirConditions : Prop :=
  ∀ (s : State) (x y : Nibble) (nn : Byte),
    (encode (.seImm x nn) = formulaXNN 0x3 x nn ∧
      ∃ t, exec (.seImm x nn) s = .next t ∧ s.skips t (s.reg x = nn)) ∧
    (encode (.sneImm x nn) = formulaXNN 0x4 x nn ∧
      ∃ t, exec (.sneImm x nn) s = .next t ∧ s.skips t (s.reg x ≠ nn)) ∧
    (encode (.seReg x y) = formulaXYN 0x5 x y 0 ∧
      ∃ t, exec (.seReg x y) s = .next t ∧ s.skips t (s.reg x = s.reg y)) ∧
    (encode (.sneReg x y) = formulaXYN 0x9 x y 0 ∧
      ∃ t, exec (.sneReg x y) s = .next t ∧ s.skips t (s.reg x ≠ s.reg y))

/-- EX9E and EXA1: with V[x] = k up to 15 they complete and skip by the flag of key k; with V[x] above 15 they raise
KEY_INDEX, which records V[x] (R94, R95, R166; the fault is the spec's own decision D10). -/
def Obligations.KeySkipsFollowTheKeypad : Prop :=
  ∀ (s : State) (x : Nibble),
    (∀ k : Fin 16, (s.reg x).toNat = k.val →
      (∃ t, exec (.skp x) s = .next t ∧ s.skips t (s.keys.get k = true)) ∧
      ∃ t, exec (.sknp x) s = .next t ∧ s.skips t (s.keys.get k = false)) ∧
    (15 < (s.reg x).toNat →
      (∃ t, exec (.skp x) s = .next t ∧
        s.entersFault t ⟨.keyIndex, .none, s.pc - 2, formulaXNN 0xE x 0x9E, (s.reg x).setWidth 17⟩) ∧
      ∃ t, exec (.sknp x) s = .next t ∧
        s.entersFault t ⟨.keyIndex, .none, s.pc - 2, formulaXNN 0xE x 0xA1, (s.reg x).setWidth 17⟩)

/-- A skip seen from the cycle: from address a it ends at a + 4 when the condition holds and at a + 2 when it does not,
whatever the skipped bytes are (R96), here for 3XNN. -/
def Obligations.ASkipEndsFourOrTwoPastItsAddress : Prop :=
  ∀ (s : State) (x : Nibble) (nn : Byte), s.faulted = false → s.fetch = some (formulaXNN 0x3 x nn) →
    ∃ t, step s = .next t ∧ t.pc = (if s.reg x = nn then s.pc + 4 else s.pc + 2) ∧ t.mem = s.mem ∧
      t.v = s.v ∧ t.faulted = false

/-! Register load and ALU -/

/-- 6XNN, 7XNN and 8XY0 to 8XY3 complete on every state: V[x] takes the value of R102 to R107, and nothing else
changes, VF (for x other than F) included. -/
def Obligations.LoadAddAndLogicWriteOneRegister : Prop :=
  ∀ (s : State) (x y : Nibble) (nn : Byte),
    (encode (.ldImm x nn) = formulaXNN 0x6 x nn ∧ ∃ t, exec (.ldImm x nn) s = .next t ∧ s.writesOnly t x nn) ∧
    (encode (.addImm x nn) = formulaXNN 0x7 x nn ∧ ∃ t, exec (.addImm x nn) s = .next t ∧
      s.writesOnly t x (BitVec.ofNat 8 ((s.reg x).toNat + nn.toNat))) ∧
    (encode (.ldReg x y) = formulaXYN 0x8 x y 0 ∧ ∃ t, exec (.ldReg x y) s = .next t ∧
      s.writesOnly t x (s.reg y)) ∧
    (encode (.orReg x y) = formulaXYN 0x8 x y 1 ∧ ∃ t, exec (.orReg x y) s = .next t ∧
      s.writesOnly t x (s.reg x ||| s.reg y)) ∧
    (encode (.andReg x y) = formulaXYN 0x8 x y 2 ∧ ∃ t, exec (.andReg x y) s = .next t ∧
      s.writesOnly t x (s.reg x &&& s.reg y)) ∧
    (encode (.xorReg x y) = formulaXYN 0x8 x y 3 ∧ ∃ t, exec (.xorReg x y) s = .next t ∧
      s.writesOnly t x (s.reg x ^^^ s.reg y))

/-- 8XY4, 8XY5 and 8XY7 complete on every state: VF is the carry or the NO-borrow of the operands as they were, V[x]
(for x other than F) the sum or difference modulo 256, nothing else changes (R108, R109, R111). For x = F the flag
survives: the order of the two writes is the spec's own decision D9 (R101). -/
def Obligations.AddAndSubtractWriteResultAndFlag : Prop :=
  ∀ (s : State) (x y : Nibble),
    (∃ t, exec (.addReg x y) s = .next t ∧
      s.writesWithFlag t x (BitVec.ofNat 8 ((s.reg x).toNat + (s.reg y).toNat))
        (if 255 < (s.reg x).toNat + (s.reg y).toNat then 1 else 0)) ∧
    (∃ t, exec (.subReg x y) s = .next t ∧
      s.writesWithFlag t x (BitVec.ofInt 8 ((s.reg x).toNat - (s.reg y).toNat))
        (if (s.reg y).toNat ≤ (s.reg x).toNat then 1 else 0)) ∧
    ∃ t, exec (.subnReg x y) s = .next t ∧
      s.writesWithFlag t x (BitVec.ofInt 8 ((s.reg y).toNat - (s.reg x).toNat))
        (if (s.reg x).toNat ≤ (s.reg y).toNat then 1 else 0)

/-- 8XY6 and 8XYE complete on every state and for every y: for x other than F, VF is the bit shifted out and V[x] the
shifted value; for x = F, VF ends as 0 after 8FY6, and as 2 or 0 after 8FYE as the old bit 7 was 1 or 0; nothing else
changes (R110, R112). The case x = F is the spec's own decision D9 (R101). -/
def Obligations.ShiftsWriteFlagThenShiftedValue : Prop :=
  ∀ (s : State) (x y : Nibble),
    (∃ t, exec (.shr x y) s = .next t ∧
      s.writesWithFlag t x (BitVec.ofNat 8 ((s.reg x).toNat / 2))
        (if x = regF then 0 else BitVec.ofNat 8 ((s.reg x).toNat % 2))) ∧
    ∃ t, exec (.shl x y) s = .next t ∧
      s.writesWithFlag t x (BitVec.ofNat 8 ((s.reg x).toNat * 2))
        (if x = regF then (if 128 ≤ (s.reg x).toNat then 2 else 0) else BitVec.ofNat 8 ((s.reg x).toNat / 128))

/-- CXNN completes on every state: with the argument r named by the host, V[x] is r and nn; with none named, it is the
free byte and nn, so it has no bit that nn lacks, whatever the free byte is; nothing else changes (R113; that rand is
an argument of the cycle is the spec's own decision D17, the free byte log entry 3). -/
def Obligations.RandomIsTheCyclesByteUnderTheMask : Prop :=
  ∀ (s : State) (x : Nibble) (nn : Byte),
    (∀ r : Byte, s.rand = some r → ∃ t, exec (.rnd x nn) s = .next t ∧ s.writesOnly t x (r &&& nn)) ∧
    ∃ t, exec (.rnd x nn) s = .next t ∧ s.writesOnly t x (s.randByte &&& nn) ∧ t.reg x &&& ~~~nn = 0

/-- Only CXNN looks at the argument `rand`: every other instruction gives the same next state, whatever the argument
(R113, R177). -/
def Obligations.OnlyRandomLooksAtTheRandomByte : Prop :=
  ∀ (i : Instr) (s t : State) (r : Option Byte) (n : Nat), (∀ x nn, i ≠ .rnd x nn) → exec i s = .next t →
    exec i { s with rand := r, randIndex := n } = .next { t with rand := r, randIndex := n }

/-! Index register and memory transfer -/

/-- FX1E and FX29 complete on every state: I is the 16-bit sum, wrapping, or V[x] * 5, not masked; nothing else
changes, VF included (R121, R122; the wrap and the unmasked product are the spec's own decisions D13, D14). -/
def Obligations.IndexArithmeticAtSixteenBits : Prop :=
  ∀ (s : State) (x : Nibble),
    (∃ t, exec (.addI x) s = .next t ∧ t = { s with i := t.i, lastOutcome := some (.done false) } ∧
      t.i.toNat = (s.i.toNat + (s.reg x).toNat) % 65536) ∧
    ∃ t, exec (.ldF x) s = .next t ∧ t = { s with i := t.i, lastOutcome := some (.done false) } ∧
      t.i.toNat = (s.reg x).toNat * 5

/-- FX33 with I + 2 in range completes: the three digits at EA(0), EA(1), EA(2), every other byte of memory and
everything else unchanged (R123). -/
def Obligations.DecimalStoreWritesThreeDigits : Prop :=
  ∀ (s : State) (x : Nibble), s.ea 2 ≤ 0xFFF →
    ∃ t, exec (.ldB x) s = .next t ∧ t = { s with mem := t.mem, lastOutcome := some (.done false) } ∧
      (t.mem.read (s.ea 0)).toNat = (s.reg x).toNat / 100 ∧
      (t.mem.read (s.ea 1)).toNat = (s.reg x).toNat / 10 % 10 ∧
      (t.mem.read (s.ea 2)).toNat = (s.reg x).toNat % 10 ∧
      ∀ a, ¬ (Instr.ldB x).storesAt s a → t.mem.read a = s.mem.read a

/-- FX55 with I + x in range completes: V[k] at EA(k) for every k up to x, every other byte of memory and everything
else unchanged (R124). -/
def Obligations.BlockStoreWritesRegistersInOrder : Prop :=
  ∀ (s : State) (x : Nibble), s.ea x.toNat ≤ 0xFFF →
    ∃ t, exec (.storeRegs x) s = .next t ∧ t = { s with mem := t.mem, lastOutcome := some (.done false) } ∧
      (∀ k : Nibble, k.toNat ≤ x.toNat → t.mem.read (s.ea k.toNat) = s.reg k) ∧
      ∀ a, ¬ (Instr.storeRegs x).storesAt s a → t.mem.read a = s.mem.read a

/-- FX65 with I + x in range completes: V[k] is the byte at EA(k) for every k up to x, the registers above x and
everything else unchanged (R125). -/
def Obligations.BlockLoadReadsRegistersInOrder : Prop :=
  ∀ (s : State) (x : Nibble), s.ea x.toNat ≤ 0xFFF →
    ∃ t, exec (.loadRegs x) s = .next t ∧ t = { s with v := t.v, lastOutcome := some (.done false) } ∧
      (∀ k : Nibble, k.toNat ≤ x.toNat → t.reg k = s.mem.read (s.ea k.toNat)) ∧
      ∀ k : Nibble, x.toNat < k.toNat → t.reg k = s.reg k

/-- Any effective address above 0xFFF: the four memory instructions raise MEM_OOB with the address max(I, 0x1000), and
nothing but the latch changes; DXYN with n = 0 makes no access (R46, R126, R162; all-or-nothing is the spec's own
decision D5, the unbounded addresses D4). -/
def Obligations.AccessPastMemoryFaultsBeforeAnyChange : Prop :=
  ∀ (s : State) (x y n : Nibble),
    (0xFFF < s.ea 2 → ∃ t, exec (.ldB x) s = .next t ∧ s.entersFault t
      ⟨.memOob, .write, s.pc - 2, formulaXNN 0xF x 0x33, BitVec.ofNat 17 (max s.i.toNat 0x1000)⟩) ∧
    (0xFFF < s.ea x.toNat → ∃ t, exec (.storeRegs x) s = .next t ∧ s.entersFault t
      ⟨.memOob, .write, s.pc - 2, formulaXNN 0xF x 0x55, BitVec.ofNat 17 (max s.i.toNat 0x1000)⟩) ∧
    (0xFFF < s.ea x.toNat → ∃ t, exec (.loadRegs x) s = .next t ∧ s.entersFault t
      ⟨.memOob, .read, s.pc - 2, formulaXNN 0xF x 0x65, BitVec.ofNat 17 (max s.i.toNat 0x1000)⟩) ∧
    (n ≠ 0 → 0xFFF < s.ea (n.toNat - 1) → ∃ t, exec (.drw x y n) s = .next t ∧ s.entersFault t
      ⟨.memOob, .read, s.pc - 2, formulaXYN 0xD x y n, BitVec.ofNat 17 (max s.i.toNat 0x1000)⟩)

/-- A store is seen by the next fetch: when FX55 stores at least two registers at the address of the next instruction,
the word fetched there is V[0] || V[1] (R52). -/
def Obligations.AStoreIsSeenByTheNextFetch : Prop :=
  ∀ (s : State) (x : Nibble), s.i = s.pc → 1 ≤ x.toNat → s.ea x.toNat ≤ 0xFFF →
    ∃ t, exec (.storeRegs x) s = .next t ∧ t.fetch = some (wordOf (s.reg 0) (s.reg 1))

/-! Display -/

/-- The Display Buffer after draw_sprite, pixel by pixel: inverted where a 1 bit of the sprite lands, unchanged
elsewhere; both coordinates wrap; the collision flag is 1 exactly when a 1 bit lands on a pixel that was on before
the draw (R133, R134, R135). -/
def Obligations.SpriteDrawInvertsExactlyTheLitPixels : Prop :=
  ∀ (d : Display) (x0 y0 : Byte) (bytes : List Byte), bytes.length ≤ 15 →
    (∀ r c, spriteLights x0 y0 bytes r c → (drawSprite d x0 y0 bytes).1.get r c = !d.get r c) ∧
    (∀ r c, ¬ spriteLights x0 y0 bytes r c → (drawSprite d x0 y0 bytes).1.get r c = d.get r c) ∧
    ((drawSprite d x0 y0 bytes).2 = true ↔ ∃ r c, spriteLights x0 y0 bytes r c ∧ d.get r c = true)

/-- Drawing the same sprite twice at the same place restores the display, and the second draw reports a collision
exactly when some 1 bit of the sprite lands on a pixel that was off before the first (R133, R134, R137; log entry 8
on R137's own wording of the second draw's flag). -/
def Obligations.DrawingTwiceRestoresTheDisplay : Prop :=
  ∀ (d : Display) (x0 y0 : Byte) (bytes : List Byte), bytes.length ≤ 15 →
    (drawSprite (drawSprite d x0 y0 bytes).1 x0 y0 bytes).1 = d ∧
    ((drawSprite (drawSprite d x0 y0 bytes).1 x0 y0 bytes).2 = true ↔
      ∃ r c, spriteLights x0 y0 bytes r c ∧ d.get r c = false)

/-- DXYN whose bytes are in range (or n = 0) completes: the sprite of the n bytes at EA(0).. is drawn at column V[x], row
V[y] (the old values, for x or y = F too), VF is the collision, and nothing else changes; the outcome is DONE with the
display touched (R137; the outcome's bit is the spec's own decision D20, n = 0 D21). -/
def Obligations.DrawCompletesWithCollisionInVF : Prop :=
  ∀ (s : State) (x y n : Nibble), (n = 0 ∨ s.ea (n.toNat - 1) ≤ 0xFFF) →
    ∃ (t : State) (bytes : List Byte), exec (.drw x y n) s = .next t ∧ bytes.length = n.toNat ∧
      (∀ j, j < n.toNat → bytes.getD j 0 = s.mem.read (s.ea j)) ∧
      t = { s with px := t.px, v := t.v, lastOutcome := some (.done true) } ∧
      (∀ r c, spriteLights (s.reg x) (s.reg y) bytes r c → t.px.get r c = !s.px.get r c) ∧
      (∀ r c, ¬ spriteLights (s.reg x) (s.reg y) bytes r c → t.px.get r c = s.px.get r c) ∧
      (t.reg regF = 1 ∨ t.reg regF = 0) ∧
      (t.reg regF = 1 ↔ ∃ r c, spriteLights (s.reg x) (s.reg y) bytes r c ∧ s.px.get r c = true) ∧
      ∀ k, k ≠ regF → t.reg k = s.reg k

/-- 00E0 completes on every state: every pixel is off, VF and everything else unchanged, the outcome DONE with the
display touched (R132, R136; the outcome's bit is the spec's own decision D20). -/
def Obligations.ClearTurnsEveryPixelOff : Prop :=
  ∀ s : State, ∃ t, exec .cls s = .next t ∧
    t = { s with px := t.px, lastOutcome := some (.done true) } ∧ ∀ r c, t.px.get r c = false

/-! Timers and keys -/

/-- FX07, FX15 and FX18 complete on every state: V[x], DT or ST takes the value R145, R147, R148 give it, and nothing
else changes. -/
def Obligations.TimerInstructionsMoveOneByte : Prop :=
  ∀ (s : State) (x : Nibble),
    (encode (.ldVxDT x) = formulaXNN 0xF x 0x07 ∧ ∃ t, exec (.ldVxDT x) s = .next t ∧ s.writesOnly t x s.dt) ∧
    (encode (.ldDTVx x) = formulaXNN 0xF x 0x15 ∧ ∃ t, exec (.ldDTVx x) s = .next t ∧
      t = { s with dt := s.reg x, lastOutcome := some (.done false) }) ∧
    (encode (.ldSTVx x) = formulaXNN 0xF x 0x18 ∧ ∃ t, exec (.ldSTVx x) s = .next t ∧
      t = { s with st := s.reg x, lastOutcome := some (.done false) })

/-- FX0A: with some key pressed it completes and V[x] is the index of a pressed key, the same one for the same keypad,
and the pressed key itself where only one is down; nothing else changes. With no key pressed it is BLOCKED: pc is the
instruction's own address and nothing else changes (R146; the outcome and the choice of the key are the spec's own
decisions D11, D12, log entry 6). -/
def Obligations.KeyWaitStoresAPressedKeyOrBlocks : Prop :=
  ∀ (s : State) (x : Nibble),
    ((∃ k, s.keys.get k = true) → ∃ (t : State) (k : Fin 16), exec (.ldVxK x) s = .next t ∧ s.keys.get k = true ∧
      s.writesOnly t x (BitVec.ofNat 8 k.val) ∧ (∀ k', (∀ j, s.keys.get j = true → j = k') → k = k') ∧
      ∀ s' t' : State, s'.keys = s.keys → exec (.ldVxK x) s' = .next t' → t'.reg x = t.reg x) ∧
    ((∀ k, s.keys.get k = false) →
      exec (.ldVxK x) s = .next { s with pc := s.pc - 2, lastOutcome := some .blocked })

/-- A blocked cycle changes nothing: pc stays on the FX0A, and the outcome is BLOCKED (R25, R146; the spec's own decision
D11). -/
def Obligations.ABlockedCycleChangesNothing : Prop :=
  ∀ (s : State) (x : Nibble), s.faulted = false → s.fetch = some (formulaXNN 0xF x 0x0A) →
    (∀ k, s.keys.get k = false) → ∃ t, step s = .next t ∧ s.sameMachine t ∧ t.lastOutcome = some .blocked

/-! What instructions leave alone, over all of them -/

/-- An instruction changes no general register but those R11 lists as written by it (10_state.md R11, R14). -/
def Obligations.RegistersAreWrittenOnlyAsTabulated : Prop :=
  ∀ (i : Instr) (s t : State) (k : Nibble), exec i s = .next t → i.writesReg k = false → t.reg k = s.reg k

/-- Every byte of memory is unchanged but those FX33 and FX55 store to (20_memory.md R40, R47). -/
def Obligations.MemoryIsWrittenOnlyByTheTwoStores : Prop :=
  ∀ (i : Instr) (s t : State) (a : Nat), exec i s = .next t → ¬ i.storesAt s a → t.mem.read a = s.mem.read a

/-- I is written only by ANNN, FX1E, FX29; DT only by FX15; ST only by FX18; sp only by 2NNN and 00EE, by one; the call
stack only by 2NNN (10_state.md R15 to R19). -/
def Obligations.SpecialRegistersHaveOnlyTheirWriters : Prop :=
  ∀ (i : Instr) (s t : State), exec i s = .next t →
    (t.i ≠ s.i → (∃ nnn, i = .ldI nnn) ∨ (∃ x, i = .addI x) ∨ ∃ x, i = .ldF x) ∧
    (t.dt ≠ s.dt → ∃ x, i = .ldDTVx x) ∧ (t.st ≠ s.st → ∃ x, i = .ldSTVx x) ∧
    (t.sp ≠ s.sp → (∃ nnn, i = .call nnn ∧ t.sp.val = s.sp.val + 1) ∨ (i = .ret ∧ t.sp.val + 1 = s.sp.val)) ∧
    (t.stack ≠ s.stack → ∃ nnn, i = .call nnn)

/-- The display is changed only by 00E0 and DXYN, the keypad by no instruction, and an instruction that sets the latch is
one of those R160 lists (10_state.md R21, R22, 60_exceptions.md R167). -/
def Obligations.DisplayKeypadAndLatchHaveOnlyTheirWriters : Prop :=
  ∀ (i : Instr) (s t : State), exec i s = .next t →
    (t.px ≠ s.px → i = .cls ∨ ∃ x y n, i = .drw x y n) ∧ t.keys = s.keys ∧
    (t.faulted ≠ s.faulted → i = .ret ∨ (∃ nnn, i = .call nnn) ∨ (∃ x, i = .skp x) ∨ (∃ x, i = .sknp x) ∨
      (∃ x y n, i = .drw x y n) ∨ (∃ x, i = .ldB x) ∨ (∃ x, i = .storeRegs x) ∨ ∃ x, i = .loadRegs x)

/-- An instruction that completes and is neither a jump, a call, a return nor a skip leaves pc at the next instruction, and
a skip leaves it there or 2 further (40_flow.md R81, 41_skip.md R96). One that blocks or faults puts it back: that is
45_timer_key.md R146 and 60_exceptions.md R168, the spec's own decisions D11, D5 and D8 (log entry 5), and no part of
R81. -/
def Obligations.PcIsWrittenOnlyByTransfersAndSkips : Prop :=
  ∀ (i : Instr) (s t : State), exec i s = .next t → t.pc ≠ s.pc →
    i = .ret ∨ (∃ nnn, i = .jp nnn) ∨ (∃ nnn, i = .call nnn) ∨ (∃ nnn, i = .jpV0 nnn) ∨
    (t.pc = s.pc + 2 ∧ ((∃ x nn, i = .seImm x nn) ∨ (∃ x nn, i = .sneImm x nn) ∨ (∃ x y, i = .seReg x y) ∨
      (∃ x y, i = .sneReg x y) ∨ (∃ x, i = .skp x) ∨ ∃ x, i = .sknp x)) ∨
    (t.pc = s.pc - 2 ∧ (t.lastOutcome = some .blocked ∨ t.lastOutcome = some (.fault t.faultRecord)))

/-! Reset, invariants, the host's operations -/

/-- What Reset leaves (70_reset_and_hazards.md R190, R191): pc 0x0200; registers, timers, call stack, display, keypad,
latch and record zero; memory 0x000-0x04F the parameter FONT, whatever it is, and 0 above. pc and the font region are
the source's; the other values are the spec's own decisions D1, D2, D6, D19 (log entries 1, 2). The record is zero in
each field, and so in any packing (log entry 13). -/
def Obligations.ResetLeavesTheStatedValues : Prop :=
  let s := State.reset
  s.pc = 0x0200 ∧ s.sp.val = 0 ∧ (∀ k, s.reg k = 0) ∧ s.i = 0 ∧ s.dt = 0 ∧ s.st = 0 ∧ (∀ k, s.stack.get k = 0) ∧
    (∀ r c, s.px.get r c = false) ∧ (∀ k, s.keys.get k = false) ∧ s.faulted = false ∧ s.faultRecord = ⟨.none, .none, 0, 0, 0⟩ ∧
    s.faultRecord.bits = 0 ∧ s.holdsFont Config.font ∧ ∀ a, 80 ≤ a → s.mem.read a = 0

/-- The invariants hold after Reset (R26). -/
def Obligations.InvariantsHoldAtReset : Prop := State.reset.Inv

/-- Every cycle keeps the invariants: sp up to 16, pc up to 0x10FE, live stack entries up to 0x1000, memory in its
canonical form, the latch consistent with its record (R13, R26). -/
def Obligations.EveryCycleKeepsTheInvariants : Prop :=
  ∀ s t : State, s.Inv → step s = .next t → t.Inv

/-- The invariants "hold in every state reachable from `Reset` by the operations" of the host, whatever programs it loads
and whatever it interleaves (R26). -/
def Obligations.EveryReachableStateMeetsTheInvariants : Prop :=
  ∀ s : State, Reachable s → s.Inv

/-- `Tick` brings both timers one toward zero, floor at zero, and touches nothing else (60_exceptions.md R172). -/
def Obligations.TickDecrementsBothTimersToZero : Prop :=
  ∀ s : State, ∃ t, operate .tick s = .next (t, .none) ∧ t = { s with dt := t.dt, st := t.st } ∧
    t.dt.toNat = s.dt.toNat - 1 ∧ t.st.toNat = s.st.toNat - 1

/-- `SetKey` sets the one flag and touches nothing else; no cycle changes a flag, "the core only reads this state"
(60_exceptions.md R174). -/
def Obligations.SetKeyWritesOneFlag : Prop :=
  (∀ (s : State) (k : Nibble) (pressed : Bool), ∃ t, operate (.setKey k pressed) s = .next (t, .none) ∧
    t = { s with keys := t.keys } ∧
    ∀ j : Fin 16, t.keys.get j = if j.val = k.toNat then pressed else s.keys.get j) ∧
  ∀ s t : State, step s = .next t → t.keys = s.keys

/-- `Load` that fits writes its bytes from the offset on, every other byte and everything else unchanged, and answers ok;
one that does not fit writes nothing and answers refused, without setting the latch (70_reset_and_hazards.md R194; the
bounds for other offsets than 0x200 are the spec's own decision D25). -/
def Obligations.LoadWritesItsBytesOrNothing : Prop :=
  ∀ (s : State) (offset : BitVec 12) (bytes : List Byte),
    (offset.toNat + bytes.length ≤ 4096 →
      ∃ t, operate (.load offset bytes) s = .next (t, .ok) ∧ t = { s with mem := t.mem } ∧
        (∀ k, k < bytes.length → t.mem.read (offset.toNat + k) = bytes.getD k 0) ∧
        ∀ a, (a < offset.toNat ∨ offset.toNat + bytes.length ≤ a) → t.mem.read a = s.mem.read a) ∧
    (4096 < offset.toNat + bytes.length → operate (.load offset bytes) s = .next (s, .refused))

/-- Only `Reset` clears the latch: any other operation leaves it set with the same record; `Reset` gives the reset state
again (R24, R169, R190; the latch is the spec's own decision D6). The number of the next free byte, a field of the
model's own, goes on (log entry 3). -/
def Obligations.OnlyResetClearsTheLatch : Prop :=
  (∀ (s t : State) (op : Operation) (r : Reply), operate op s = .next (t, r) → op ≠ .reset → s.faulted = true →
    t.faulted = true ∧ t.faultRecord = s.faultRecord) ∧
  ∀ s : State, operate .reset s = .next ({ State.reset with randIndex := s.randIndex }, .none)

/-- `Cycle(rand)` is one step with the argument the host names, and returns the outcome; `ReadDisplay` returns the grid
as it stands and changes nothing (R7, R80, R175; the interface is the spec's own decision D15, log entries 3, 4). -/
def Obligations.CycleAndReadDisplayAnswerTheHost : Prop :=
  (∀ (s : State) (rand : Byte), ∃ (t : State) (o : CycleOutcome),
    step { s with rand := some rand } = .next t ∧ t.lastOutcome = some o ∧
    operate (.cycle rand) s = .next (t, .outcome (some o))) ∧
  ∀ s : State, operate .readDisplay s = .next (s, .display s.px) ∧
    ∀ (r : Fin 32) (c : Fin 64), displayPortBit s.px ⟨r.val * 64 + c.val, by omega⟩ = s.px.get r c

/-- At the end of a run, pc resting on a jump to itself, every further cycle leaves the machine unchanged and still at
the end (R82, R200; that this counts as the end is the customary definition, the spec's own decision D27). -/
def Obligations.TheEndOfARunIsAFixedPoint : Prop :=
  ∀ s : State, s.endOfRun → ∃ t, step s = .next t ∧ s.sameMachine t ∧ t.endOfRun

/-- FX29 on a digit points I at that digit's glyph, whatever FONT memory holds: byte j of the glyph stands at EA(j)
(20_memory.md R41, 43_index_memory.md R122). For V[x] above 15 the statement says nothing, see
IndexArithmeticAtSixteenBits. -/
def Obligations.DigitAddressIsItsGlyph : Prop :=
  ∀ (s : State) (font : Vector Byte 80) (x d : Nibble), s.holdsFont font → (s.reg x).toNat = d.toNat →
    ∃ t, exec (.ldF x) s = .next t ∧ t = { s with i := t.i, lastOutcome := some (.done false) } ∧
      ∀ j : Fin 5, t.mem.read (t.ea j.val) = font.get ⟨d.toNat * 5 + j.val, by have := d.isLt; have := j.isLt; omega⟩

/-- Every operation of the host keeps the invariants, from every state that meets them, whatever its arguments: a `Load`
of any bytes at any offset, a `Reset`, a cycle with any byte (00_scope.md R7, 10_state.md R26). -/
def Obligations.EveryOperationKeepsTheInvariants : Prop :=
  ∀ (s t : State) (op : Operation) (r : Reply), s.Inv → operate op s = .next (t, r) → t.Inv
end

