-- ==== Sys2Proof/Laws/Memory.lean ====
section
/-! SUPPORT. The laws of main memory: what a write changes and what it leaves (spec/20_memory.md R50), and that every
memory operation keeps the canonical form. -/

namespace Sys2Proof.Machine

/-- The reset byte of an address of the font region (70_reset_and_hazards.md R191). -/
theorem unlisted_font (k : Fin 80) : unlisted k.val = Config.font.get k := by
  rw [unlisted, dif_pos k.isLt]

/-- The reset byte of any other address (70_reset_and_hazards.md R191). -/
theorem unlisted_above {a : Nat} (h : 80 ≤ a) : unlisted a = 0 := by
  rw [unlisted, dif_neg (by omega)]

theorem Memory.read_without_same (m : Memory) (a : Nat) : (m.without a).read a = unlisted a := by
  induction m with
  | nil => rfl
  | cons c m ih =>
    by_cases h : c.1 = a
    · simpa [Memory.without, h] using ih
    · have : (Memory.without (c :: m) a) = c :: Memory.without m a := by simp [Memory.without, h]
      simpa [this, Memory.read, h] using ih

theorem Memory.read_without_other (m : Memory) {a a' : Nat} (h : a' ≠ a) : (m.without a).read a' = m.read a' := by
  induction m with
  | nil => rfl
  | cons c m ih =>
    by_cases hc : c.1 = a
    · have h1 : (Memory.without (c :: m) a) = Memory.without m a := by simp [Memory.without, hc]
      have h2 : c.1 ≠ a' := fun e => h (e.symm.trans hc)
      simpa [h1, Memory.read, h2] using ih
    · have h1 : (Memory.without (c :: m) a) = c :: Memory.without m a := by simp [Memory.without, hc]
      simp [h1, Memory.read, ih]

theorem Memory.read_insert_same (m : Memory) (a : Nat) (b : Byte) (h : ∀ c ∈ m, c.1 ≠ a) :
    (m.insert a b).read a = b := by
  induction m with
  | nil => simp [Memory.insert, Memory.read]
  | cons c m ih =>
    have hc := h c (by simp)
    have hm := ih (fun d hd => h d (by simp [hd]))
    by_cases hl : a < c.1
    · simp [Memory.insert, hl, Memory.read]
    · simpa [Memory.insert, hl, Memory.read, hc] using hm

theorem Memory.read_insert_other (m : Memory) {a a' : Nat} (b : Byte) (h : a' ≠ a) :
    (m.insert a b).read a' = m.read a' := by
  induction m with
  | nil => simp [Memory.insert, Memory.read, h.symm]
  | cons c m ih =>
    by_cases hl : a < c.1
    · simp [Memory.insert, hl, Memory.read, h.symm]
    · simp [Memory.insert, hl, Memory.read, ih]

/-- A read after a write to the same address gives the byte written. -/
theorem Memory.read_write_same (m : Memory) {a : Nat} (b : Byte) (h : a ≤ 0xFFF) : (m.write a b).read a = b := by
  have hn : ¬ 0xFFF < a := by omega
  by_cases hb : b = unlisted a
  · rw [Memory.write, if_neg hn, if_pos hb, Memory.read_without_same, hb]
  · rw [Memory.write, if_neg hn, if_neg hb]
    exact Memory.read_insert_same _ _ _ (fun c hc => by simpa using (List.mem_filter.mp hc).2)

/-- A write leaves every other address as it was. -/
theorem Memory.read_write_other (m : Memory) {a a' : Nat} (b : Byte) (h : a' ≠ a) :
    (m.write a b).read a' = m.read a' := by
  unfold Memory.write
  split
  · rfl
  · split
    · exact Memory.read_without_other m h
    · rw [Memory.read_insert_other _ _ h, Memory.read_without_other m h]

/-- Storing a list of bytes leaves every address outside them as it was. -/
theorem Memory.read_writeBytes_outside (bs : List Byte) (m : Memory) {a a' : Nat}
    (h : a' < a ∨ a + bs.length ≤ a') : (m.writeBytes a bs).read a' = m.read a' := by
  induction bs generalizing m a with
  | nil => rfl
  | cons b bs ih =>
    simp only [List.length_cons] at h
    rw [Memory.writeBytes, ih _ (by omega), Memory.read_write_other _ _ (by omega)]

/-- Storing a list of bytes inside the address space, each address then reads as its byte. -/
theorem Memory.read_writeBytes_inside (bs : List Byte) (m : Memory) {a k : Nat} (hk : k < bs.length)
    (ha : a + bs.length ≤ 0x1000) : (m.writeBytes a bs).read (a + k) = bs[k] := by
  induction bs generalizing m a k with
  | nil => simp at hk
  | cons b bs ih =>
    simp only [List.length_cons] at hk ha
    cases k with
    | zero =>
      rw [Memory.writeBytes, Nat.add_zero, Memory.read_writeBytes_outside _ _ (by omega)]
      exact Memory.read_write_same m b (by omega)
    | succ k =>
      rw [Memory.writeBytes, show a + (k + 1) = a + 1 + k by omega, ih _ (by omega) (by omega)]
      rfl

theorem Memory.wfFrom_mono {m : Memory} {low low' : Nat} (h : low' ≤ low) (hm : Memory.wfFrom low m = true) :
    Memory.wfFrom low' m = true := by
  cases m with
  | nil => rfl
  | cons c m =>
    simp only [Memory.wfFrom, Bool.and_eq_true, decide_eq_true_eq] at hm ⊢
    exact ⟨⟨⟨by omega, hm.1.1.2⟩, hm.1.2⟩, hm.2⟩

theorem Memory.without_wfFrom {m : Memory} {low : Nat} (a : Nat) (hm : Memory.wfFrom low m = true) :
    Memory.wfFrom low (m.without a) = true := by
  induction m generalizing low with
  | nil => rfl
  | cons c m ih =>
    simp only [Memory.wfFrom, Bool.and_eq_true, decide_eq_true_eq] at hm
    have ht := ih hm.2
    by_cases hc : c.1 = a
    · have h1 : (Memory.without (c :: m) a) = Memory.without m a := by simp [Memory.without, hc]
      rw [h1]
      exact Memory.wfFrom_mono (by omega) ht
    · have h1 : (Memory.without (c :: m) a) = c :: Memory.without m a := by simp [Memory.without, hc]
      simp only [h1, Memory.wfFrom, Bool.and_eq_true, decide_eq_true_eq]
      exact ⟨hm.1, ht⟩

theorem Memory.insert_wfFrom {m : Memory} {low a : Nat} {b : Byte} (hlow : low ≤ a) (ha : a ≤ 0xFFF)
    (hb : b ≠ unlisted a) (hne : ∀ c ∈ m, c.1 ≠ a) (hm : Memory.wfFrom low m = true) :
    Memory.wfFrom low (m.insert a b) = true := by
  induction m generalizing low with
  | nil => simp [Memory.insert, Memory.wfFrom, hlow, ha, hb]
  | cons c m ih =>
    simp only [Memory.wfFrom, Bool.and_eq_true, decide_eq_true_eq] at hm
    have hc := hne c (by simp)
    by_cases hl : a < c.1
    · simp only [Memory.insert, hl, if_true, Memory.wfFrom, Bool.and_eq_true, decide_eq_true_eq]
      exact ⟨⟨⟨hlow, ha⟩, hb⟩, ⟨⟨⟨hl, hm.1.1.2⟩, hm.1.2⟩, hm.2⟩⟩
    · have := ih (low := c.1 + 1) (by omega) (fun d hd => hne d (by simp [hd])) hm.2
      simp only [Memory.insert, hl, if_false, Memory.wfFrom, Bool.and_eq_true, decide_eq_true_eq]
      exact ⟨hm.1, this⟩

/-- Storing one byte keeps the canonical form. -/
theorem Memory.write_wf {m : Memory} (a : Nat) (b : Byte) (hm : m.wf = true) : (m.write a b).wf = true := by
  unfold Memory.write Memory.wf at *
  split
  · exact hm
  · split
    · exact Memory.without_wfFrom a hm
    · exact Memory.insert_wfFrom (by omega) (by omega) (by assumption)
        (fun c hc => by simpa using (List.mem_filter.mp hc).2) (Memory.without_wfFrom a hm)

/-- Storing a list of bytes keeps the canonical form. -/
theorem Memory.writeBytes_wf (bs : List Byte) {m : Memory} (a : Nat) (hm : m.wf = true) :
    (m.writeBytes a bs).wf = true := by
  induction bs generalizing m a with
  | nil => exact hm
  | cons b bs ih => exact ih _ (Memory.write_wf a b hm)

/-- Memory after reset is in its canonical form. -/
theorem Memory.reset_wf : State.reset.mem.wf = true := rfl

/-- In a memory in canonical form, an address above the address space reads as 0. -/
theorem Memory.read_above_of_wfFrom {m : Memory} {low a : Nat} (ha : 0xFFF < a) (hm : Memory.wfFrom low m = true) :
    m.read a = unlisted a := by
  induction m generalizing low with
  | nil => rfl
  | cons c m ih =>
    simp only [Memory.wfFrom, Bool.and_eq_true, decide_eq_true_eq] at hm
    rw [Memory.read, if_neg (by omega), ih hm.2]

end Sys2Proof.Machine
end

