-- ==== Sys2Proof/Laws/State.lean ====
section
/-! SUPPORT. One lemma per field per update of State, so that no later proof unfolds a record update. -/

namespace Sys2Proof.Machine

section
variable (s : State) (x : Nibble) (b : Byte)
@[simp] theorem State.setReg_v : (s.setReg x b).v = s.v.set x.toNat b x.isLt := rfl
@[simp] theorem State.setReg_i : (s.setReg x b).i = s.i := rfl
@[simp] theorem State.setReg_pc : (s.setReg x b).pc = s.pc := rfl
@[simp] theorem State.setReg_dt : (s.setReg x b).dt = s.dt := rfl
@[simp] theorem State.setReg_st : (s.setReg x b).st = s.st := rfl
@[simp] theorem State.setReg_sp : (s.setReg x b).sp = s.sp := rfl
@[simp] theorem State.setReg_stack : (s.setReg x b).stack = s.stack := rfl
@[simp] theorem State.setReg_mem : (s.setReg x b).mem = s.mem := rfl
@[simp] theorem State.setReg_px : (s.setReg x b).px = s.px := rfl
@[simp] theorem State.setReg_keys : (s.setReg x b).keys = s.keys := rfl
@[simp] theorem State.setReg_faulted : (s.setReg x b).faulted = s.faulted := rfl
@[simp] theorem State.setReg_faultRecord : (s.setReg x b).faultRecord = s.faultRecord := rfl
@[simp] theorem State.setReg_rand : (s.setReg x b).rand = s.rand := rfl
@[simp] theorem State.setReg_randIndex : (s.setReg x b).randIndex = s.randIndex := rfl
@[simp] theorem State.setReg_lastOutcome : (s.setReg x b).lastOutcome = s.lastOutcome := rfl
end

section
variable (s : State) (w : Word)
@[simp] theorem State.setI_v : (s.setI w).v = s.v := rfl
@[simp] theorem State.setI_i : (s.setI w).i = w := rfl
@[simp] theorem State.setI_pc : (s.setI w).pc = s.pc := rfl
@[simp] theorem State.setI_dt : (s.setI w).dt = s.dt := rfl
@[simp] theorem State.setI_st : (s.setI w).st = s.st := rfl
@[simp] theorem State.setI_sp : (s.setI w).sp = s.sp := rfl
@[simp] theorem State.setI_stack : (s.setI w).stack = s.stack := rfl
@[simp] theorem State.setI_mem : (s.setI w).mem = s.mem := rfl
@[simp] theorem State.setI_px : (s.setI w).px = s.px := rfl
@[simp] theorem State.setI_keys : (s.setI w).keys = s.keys := rfl
@[simp] theorem State.setI_faulted : (s.setI w).faulted = s.faulted := rfl
@[simp] theorem State.setI_faultRecord : (s.setI w).faultRecord = s.faultRecord := rfl
@[simp] theorem State.setI_rand : (s.setI w).rand = s.rand := rfl
@[simp] theorem State.setI_randIndex : (s.setI w).randIndex = s.randIndex := rfl
@[simp] theorem State.setI_lastOutcome : (s.setI w).lastOutcome = s.lastOutcome := rfl
end

section
variable (s : State) (w : Word)
@[simp] theorem State.setPc_v : (s.setPc w).v = s.v := rfl
@[simp] theorem State.setPc_i : (s.setPc w).i = s.i := rfl
@[simp] theorem State.setPc_pc : (s.setPc w).pc = w := rfl
@[simp] theorem State.setPc_dt : (s.setPc w).dt = s.dt := rfl
@[simp] theorem State.setPc_st : (s.setPc w).st = s.st := rfl
@[simp] theorem State.setPc_sp : (s.setPc w).sp = s.sp := rfl
@[simp] theorem State.setPc_stack : (s.setPc w).stack = s.stack := rfl
@[simp] theorem State.setPc_mem : (s.setPc w).mem = s.mem := rfl
@[simp] theorem State.setPc_px : (s.setPc w).px = s.px := rfl
@[simp] theorem State.setPc_keys : (s.setPc w).keys = s.keys := rfl
@[simp] theorem State.setPc_faulted : (s.setPc w).faulted = s.faulted := rfl
@[simp] theorem State.setPc_faultRecord : (s.setPc w).faultRecord = s.faultRecord := rfl
@[simp] theorem State.setPc_rand : (s.setPc w).rand = s.rand := rfl
@[simp] theorem State.setPc_randIndex : (s.setPc w).randIndex = s.randIndex := rfl
@[simp] theorem State.setPc_lastOutcome : (s.setPc w).lastOutcome = s.lastOutcome := rfl
end

section
variable (s : State) (b : Byte)
@[simp] theorem State.setDT_v : (s.setDT b).v = s.v := rfl
@[simp] theorem State.setDT_i : (s.setDT b).i = s.i := rfl
@[simp] theorem State.setDT_pc : (s.setDT b).pc = s.pc := rfl
@[simp] theorem State.setDT_dt : (s.setDT b).dt = b := rfl
@[simp] theorem State.setDT_st : (s.setDT b).st = s.st := rfl
@[simp] theorem State.setDT_sp : (s.setDT b).sp = s.sp := rfl
@[simp] theorem State.setDT_stack : (s.setDT b).stack = s.stack := rfl
@[simp] theorem State.setDT_mem : (s.setDT b).mem = s.mem := rfl
@[simp] theorem State.setDT_px : (s.setDT b).px = s.px := rfl
@[simp] theorem State.setDT_keys : (s.setDT b).keys = s.keys := rfl
@[simp] theorem State.setDT_faulted : (s.setDT b).faulted = s.faulted := rfl
@[simp] theorem State.setDT_faultRecord : (s.setDT b).faultRecord = s.faultRecord := rfl
@[simp] theorem State.setDT_rand : (s.setDT b).rand = s.rand := rfl
@[simp] theorem State.setDT_randIndex : (s.setDT b).randIndex = s.randIndex := rfl
@[simp] theorem State.setDT_lastOutcome : (s.setDT b).lastOutcome = s.lastOutcome := rfl
end

section
variable (s : State) (b : Byte)
@[simp] theorem State.setST_v : (s.setST b).v = s.v := rfl
@[simp] theorem State.setST_i : (s.setST b).i = s.i := rfl
@[simp] theorem State.setST_pc : (s.setST b).pc = s.pc := rfl
@[simp] theorem State.setST_dt : (s.setST b).dt = s.dt := rfl
@[simp] theorem State.setST_st : (s.setST b).st = b := rfl
@[simp] theorem State.setST_sp : (s.setST b).sp = s.sp := rfl
@[simp] theorem State.setST_stack : (s.setST b).stack = s.stack := rfl
@[simp] theorem State.setST_mem : (s.setST b).mem = s.mem := rfl
@[simp] theorem State.setST_px : (s.setST b).px = s.px := rfl
@[simp] theorem State.setST_keys : (s.setST b).keys = s.keys := rfl
@[simp] theorem State.setST_faulted : (s.setST b).faulted = s.faulted := rfl
@[simp] theorem State.setST_faultRecord : (s.setST b).faultRecord = s.faultRecord := rfl
@[simp] theorem State.setST_rand : (s.setST b).rand = s.rand := rfl
@[simp] theorem State.setST_randIndex : (s.setST b).randIndex = s.randIndex := rfl
@[simp] theorem State.setST_lastOutcome : (s.setST b).lastOutcome = s.lastOutcome := rfl
end

section
variable (s : State) (m : Memory)
@[simp] theorem State.setMem_v : (s.setMem m).v = s.v := rfl
@[simp] theorem State.setMem_i : (s.setMem m).i = s.i := rfl
@[simp] theorem State.setMem_pc : (s.setMem m).pc = s.pc := rfl
@[simp] theorem State.setMem_dt : (s.setMem m).dt = s.dt := rfl
@[simp] theorem State.setMem_st : (s.setMem m).st = s.st := rfl
@[simp] theorem State.setMem_sp : (s.setMem m).sp = s.sp := rfl
@[simp] theorem State.setMem_stack : (s.setMem m).stack = s.stack := rfl
@[simp] theorem State.setMem_mem : (s.setMem m).mem = m := rfl
@[simp] theorem State.setMem_px : (s.setMem m).px = s.px := rfl
@[simp] theorem State.setMem_keys : (s.setMem m).keys = s.keys := rfl
@[simp] theorem State.setMem_faulted : (s.setMem m).faulted = s.faulted := rfl
@[simp] theorem State.setMem_faultRecord : (s.setMem m).faultRecord = s.faultRecord := rfl
@[simp] theorem State.setMem_rand : (s.setMem m).rand = s.rand := rfl
@[simp] theorem State.setMem_randIndex : (s.setMem m).randIndex = s.randIndex := rfl
@[simp] theorem State.setMem_lastOutcome : (s.setMem m).lastOutcome = s.lastOutcome := rfl
end

section
variable (s : State) (d : Display)
@[simp] theorem State.setPx_v : (s.setPx d).v = s.v := rfl
@[simp] theorem State.setPx_i : (s.setPx d).i = s.i := rfl
@[simp] theorem State.setPx_pc : (s.setPx d).pc = s.pc := rfl
@[simp] theorem State.setPx_dt : (s.setPx d).dt = s.dt := rfl
@[simp] theorem State.setPx_st : (s.setPx d).st = s.st := rfl
@[simp] theorem State.setPx_sp : (s.setPx d).sp = s.sp := rfl
@[simp] theorem State.setPx_stack : (s.setPx d).stack = s.stack := rfl
@[simp] theorem State.setPx_mem : (s.setPx d).mem = s.mem := rfl
@[simp] theorem State.setPx_px : (s.setPx d).px = d := rfl
@[simp] theorem State.setPx_keys : (s.setPx d).keys = s.keys := rfl
@[simp] theorem State.setPx_faulted : (s.setPx d).faulted = s.faulted := rfl
@[simp] theorem State.setPx_faultRecord : (s.setPx d).faultRecord = s.faultRecord := rfl
@[simp] theorem State.setPx_rand : (s.setPx d).rand = s.rand := rfl
@[simp] theorem State.setPx_randIndex : (s.setPx d).randIndex = s.randIndex := rfl
@[simp] theorem State.setPx_lastOutcome : (s.setPx d).lastOutcome = s.lastOutcome := rfl
end

section
variable (s : State) (o : CycleOutcome)
@[simp] theorem State.setOutcome_v : (s.setOutcome o).v = s.v := rfl
@[simp] theorem State.setOutcome_i : (s.setOutcome o).i = s.i := rfl
@[simp] theorem State.setOutcome_pc : (s.setOutcome o).pc = s.pc := rfl
@[simp] theorem State.setOutcome_dt : (s.setOutcome o).dt = s.dt := rfl
@[simp] theorem State.setOutcome_st : (s.setOutcome o).st = s.st := rfl
@[simp] theorem State.setOutcome_sp : (s.setOutcome o).sp = s.sp := rfl
@[simp] theorem State.setOutcome_stack : (s.setOutcome o).stack = s.stack := rfl
@[simp] theorem State.setOutcome_mem : (s.setOutcome o).mem = s.mem := rfl
@[simp] theorem State.setOutcome_px : (s.setOutcome o).px = s.px := rfl
@[simp] theorem State.setOutcome_keys : (s.setOutcome o).keys = s.keys := rfl
@[simp] theorem State.setOutcome_faulted : (s.setOutcome o).faulted = s.faulted := rfl
@[simp] theorem State.setOutcome_faultRecord : (s.setOutcome o).faultRecord = s.faultRecord := rfl
@[simp] theorem State.setOutcome_rand : (s.setOutcome o).rand = s.rand := rfl
@[simp] theorem State.setOutcome_randIndex : (s.setOutcome o).randIndex = s.randIndex := rfl
@[simp] theorem State.setOutcome_lastOutcome : (s.setOutcome o).lastOutcome = some o := rfl
end

section
variable (s : State) (c : Bool)
@[simp] theorem State.skipIf_v : (s.skipIf c).v = s.v := by cases c <;> rfl
@[simp] theorem State.skipIf_i : (s.skipIf c).i = s.i := by cases c <;> rfl
@[simp] theorem State.skipIf_pc : (s.skipIf c).pc = if c then s.pc + 2 else s.pc := by cases c <;> rfl
@[simp] theorem State.skipIf_dt : (s.skipIf c).dt = s.dt := by cases c <;> rfl
@[simp] theorem State.skipIf_st : (s.skipIf c).st = s.st := by cases c <;> rfl
@[simp] theorem State.skipIf_sp : (s.skipIf c).sp = s.sp := by cases c <;> rfl
@[simp] theorem State.skipIf_stack : (s.skipIf c).stack = s.stack := by cases c <;> rfl
@[simp] theorem State.skipIf_mem : (s.skipIf c).mem = s.mem := by cases c <;> rfl
@[simp] theorem State.skipIf_px : (s.skipIf c).px = s.px := by cases c <;> rfl
@[simp] theorem State.skipIf_keys : (s.skipIf c).keys = s.keys := by cases c <;> rfl
@[simp] theorem State.skipIf_faulted : (s.skipIf c).faulted = s.faulted := by cases c <;> rfl
@[simp] theorem State.skipIf_faultRecord : (s.skipIf c).faultRecord = s.faultRecord := by cases c <;> rfl
@[simp] theorem State.skipIf_rand : (s.skipIf c).rand = s.rand := by cases c <;> rfl
@[simp] theorem State.skipIf_randIndex : (s.skipIf c).randIndex = s.randIndex := by cases c <;> rfl
@[simp] theorem State.skipIf_lastOutcome : (s.skipIf c).lastOutcome = s.lastOutcome := by cases c <;> rfl
end

section
variable (s : State)
@[simp] theorem State.advance_v : s.advance.v = s.v := rfl
@[simp] theorem State.advance_i : s.advance.i = s.i := rfl
@[simp] theorem State.advance_pc : s.advance.pc = s.pc + 2 := rfl
@[simp] theorem State.advance_dt : s.advance.dt = s.dt := rfl
@[simp] theorem State.advance_st : s.advance.st = s.st := rfl
@[simp] theorem State.advance_sp : s.advance.sp = s.sp := rfl
@[simp] theorem State.advance_stack : s.advance.stack = s.stack := rfl
@[simp] theorem State.advance_mem : s.advance.mem = s.mem := rfl
@[simp] theorem State.advance_px : s.advance.px = s.px := rfl
@[simp] theorem State.advance_keys : s.advance.keys = s.keys := rfl
@[simp] theorem State.advance_faulted : s.advance.faulted = s.faulted := rfl
@[simp] theorem State.advance_faultRecord : s.advance.faultRecord = s.faultRecord := rfl
@[simp] theorem State.advance_rand : s.advance.rand = s.rand := rfl
@[simp] theorem State.advance_randIndex : s.advance.randIndex = s.randIndex := rfl
@[simp] theorem State.advance_lastOutcome : s.advance.lastOutcome = s.lastOutcome := rfl
@[simp] theorem State.endCycle_v : s.endCycle.v = s.v := rfl
@[simp] theorem State.endCycle_i : s.endCycle.i = s.i := rfl
@[simp] theorem State.endCycle_pc : s.endCycle.pc = s.pc := rfl
@[simp] theorem State.endCycle_dt : s.endCycle.dt = s.dt := rfl
@[simp] theorem State.endCycle_st : s.endCycle.st = s.st := rfl
@[simp] theorem State.endCycle_sp : s.endCycle.sp = s.sp := rfl
@[simp] theorem State.endCycle_stack : s.endCycle.stack = s.stack := rfl
@[simp] theorem State.endCycle_mem : s.endCycle.mem = s.mem := rfl
@[simp] theorem State.endCycle_px : s.endCycle.px = s.px := rfl
@[simp] theorem State.endCycle_keys : s.endCycle.keys = s.keys := rfl
@[simp] theorem State.endCycle_faulted : s.endCycle.faulted = s.faulted := rfl
@[simp] theorem State.endCycle_faultRecord : s.endCycle.faultRecord = s.faultRecord := rfl
@[simp] theorem State.endCycle_rand : s.endCycle.rand = none := rfl
@[simp] theorem State.endCycle_randIndex : s.endCycle.randIndex = s.randIndex + 1 := rfl
@[simp] theorem State.endCycle_lastOutcome : s.endCycle.lastOutcome = s.lastOutcome := rfl
end

end Sys2Proof.Machine
end

