-- ==== Sys2Proof/Laws/Ops.lean ====
section
/-! SUPPORT. One lemma per shared operation that says once everything it can do; later proofs cite it instead of
unfolding the operation. -/

namespace Sys2Proof.Machine

/-- A register reads as what was written to it, every other register as before. -/
theorem State.reg_setReg (s : State) (x y : Nibble) (b : Byte) :
    (s.setReg x b).reg y = if y = x then b else s.reg y := by
  simp only [State.reg, State.setReg, Vector.get_eq_getElem, Vector.getElem_set]
  by_cases h : y = x
  · subst h; simp
  · have : ¬ x.toNat = y.toFin.val := fun e => h (BitVec.eq_of_toNat_eq e.symm)
    rw [if_neg h, if_neg this]

@[simp] theorem State.reg_setReg_same (s : State) (x : Nibble) (b : Byte) : (s.setReg x b).reg x = b := by
  rw [State.reg_setReg, if_pos rfl]

theorem State.reg_setReg_other (s : State) {x y : Nibble} (b : Byte) (h : y ≠ x) : (s.setReg x b).reg y = s.reg y := by
  rw [State.reg_setReg, if_neg h]

@[simp] theorem State.reg_setI (s : State) (w : Word) (k : Nibble) : (s.setI w).reg k = s.reg k := rfl
@[simp] theorem State.reg_setPc (s : State) (w : Word) (k : Nibble) : (s.setPc w).reg k = s.reg k := rfl
@[simp] theorem State.reg_setDT (s : State) (b : Byte) (k : Nibble) : (s.setDT b).reg k = s.reg k := rfl
@[simp] theorem State.reg_setST (s : State) (b : Byte) (k : Nibble) : (s.setST b).reg k = s.reg k := rfl
@[simp] theorem State.reg_setMem (s : State) (m : Memory) (k : Nibble) : (s.setMem m).reg k = s.reg k := rfl
@[simp] theorem State.reg_setPx (s : State) (d : Display) (k : Nibble) : (s.setPx d).reg k = s.reg k := rfl
@[simp] theorem State.reg_setOutcome (s : State) (o : CycleOutcome) (k : Nibble) :
    (s.setOutcome o).reg k = s.reg k := rfl
@[simp] theorem State.reg_skipIf (s : State) (c : Bool) (k : Nibble) : (s.skipIf c).reg k = s.reg k := by
  cases c <;> rfl

/-- A register after the block load: the loaded byte up to x, as before above x (43_index_memory.md R125). -/
theorem State.reg_loadRegsUpTo (s : State) (x k : Nibble) :
    (s.loadRegsUpTo x).reg k = if k.toNat ≤ x.toNat then s.mem.read (s.ea k.toNat) else s.reg k := by
  simp [State.reg, State.loadRegsUpTo, Vector.get_eq_getElem]

/-- A pixel reads as what was written to it, every other pixel as before. -/
theorem Display.get_put (d : Display) (r r' : Fin 32) (c c' : Fin 64) (b : Bool) :
    (d.put r c b).get r' c' = if r' = r ∧ c' = c then b else d.get r' c' := by
  unfold Display.get Display.put
  simp only [Vector.get_eq_getElem, Vector.getElem_set]
  by_cases hr : r' = r
  · subst hr
    by_cases hc : c' = c
    · subst hc; simp
    · have : ¬ c.val = c'.val := fun e => hc (Fin.ext e.symm)
      simp [hc, this]
  · have : ¬ r.val = r'.val := fun e => hr (Fin.ext e.symm)
    simp [hr, this]

theorem Display.get_cleared (r : Fin 32) (c : Fin 64) : Display.cleared.get r c = false := by
  simp [Display.get, Display.cleared, Vector.get_eq_getElem]

/-- The push: with room, the return address is stored and sp counts up; else there is none. -/
theorem State.pushReturn_eq_some {s t : State} (h : s.pushReturn = some t) :
    ∃ hs : s.sp.val < 16,
      t = { s with stack := s.stack.set s.sp.val s.pc hs, sp := ⟨s.sp.val + 1, by omega⟩ } := by
  unfold State.pushReturn at h
  split at h
  · exact ⟨by assumption, (Option.some.inj h).symm⟩
  · exact absurd h (by simp)

theorem State.pushReturn_eq_none {s : State} : s.pushReturn = none ↔ s.sp.val = 16 := by
  unfold State.pushReturn
  have := s.sp.isLt
  split <;> simp <;> omega

/-- The pop: above 0, pc takes the entry below sp; else there is none. -/
theorem State.popReturn_eq_some {s t : State} (h : s.popReturn = some t) :
    ∃ hs : 0 < s.sp.val,
      t = { s with sp := ⟨s.sp.val - 1, by omega⟩, pc := s.stack[s.sp.val - 1]'(by omega) } := by
  unfold State.popReturn at h
  split at h
  · exact ⟨by assumption, (Option.some.inj h).symm⟩
  · exact absurd h (by simp)

theorem State.popReturn_eq_none {s : State} : s.popReturn = none ↔ s.sp.val = 0 := by
  unfold State.popReturn
  split <;> simp <;> omega

/-- The keypad query: a flag for an index up to 15, none above. -/
theorem State.key?_eq_some {s : State} {k : Byte} {b : Bool} (h : s.key? k = some b) :
    ∃ hk : k.toNat < 16, s.keys.get ⟨k.toNat, hk⟩ = b := by
  unfold State.key? at h
  split at h
  · exact ⟨by assumption, Option.some.inj h⟩
  · exact absurd h (by simp)

theorem State.key?_eq_none {s : State} {k : Byte} : s.key? k = none ↔ 15 < k.toNat := by
  unfold State.key?
  split <;> simp <;> omega

/-- A key is in the list of pressed keys exactly when its flag is set. -/
theorem State.mem_pressed {s : State} {k : Fin 16} : k ∈ s.pressed ↔ s.keys.get k = true := by
  simp [State.pressed]

/-- KeySelect picks one of the pressed keys. -/
theorem pickKey_mem (k : Fin 16) (ks : List (Fin 16)) (choice : Nat) : pickKey k ks choice ∈ k :: ks := by
  unfold pickKey
  split
  · simp
  · rename_i a as
    have : choice % ((a :: as).length + 1) < (k :: a :: as).length := Nat.mod_lt _ (by simp)
    rw [List.getD_eq_getElem _ _ this]
    exact List.getElem_mem _

/-- The bounds check: no access, or the last address is in the address space. -/
theorem State.inBounds_iff {s : State} {len : Nat} :
    s.inBounds len = true ↔ len = 0 ∨ s.i.toNat + len ≤ 0x1000 := by
  simp only [State.inBounds, Bool.or_eq_true, beq_iff_eq, decide_eq_true_eq]
  unfold State.ea
  omega

theorem State.inBounds_eq_false {s : State} {len : Nat} :
    s.inBounds len = false ↔ 0 < len ∧ 0x1000 < s.i.toNat + len := by
  rw [← Bool.not_eq_true, State.inBounds_iff]
  omega

/-- Storing from I on leaves every address outside the stored bytes as it was. -/
theorem State.read_storeBytes_outside (s : State) (bs : List Byte) {a : Nat}
    (h : a < s.i.toNat ∨ s.i.toNat + bs.length ≤ a) : (s.storeBytes bs).mem.read a = s.mem.read a :=
  Memory.read_writeBytes_outside bs s.mem h

/-- Storing from I on inside the address space, each stored address reads as its byte. -/
theorem State.read_storeBytes_inside (s : State) (bs : List Byte) {k : Nat} (hk : k < bs.length)
    (h : s.i.toNat + bs.length ≤ 0x1000) : (s.storeBytes bs).mem.read (s.ea k) = bs[k] :=
  Memory.read_writeBytes_inside bs s.mem hk h

@[simp] theorem State.length_regsUpTo (s : State) (x : Nibble) : (s.regsUpTo x).length = x.toNat + 1 := by
  have : x.toNat < 16 := x.isLt
  simp [State.regsUpTo]
  omega

@[simp] theorem length_bcdDigits (b : Byte) : (bcdDigits b).length = 3 := rfl

@[simp] theorem State.length_loadBytes (s : State) (len : Nat) : (s.loadBytes len).length = len := by
  simp [State.loadBytes, Memory.readBytes]

/-- The fetch: both bytes in range, or none. -/
theorem State.fetch_eq_some {s : State} {w : Word} (h : s.fetch = some w) :
    s.pc.toNat ≤ 0xFFE ∧ w = wordOf (s.mem.read s.pc.toNat) (s.mem.read (s.pc.toNat + 1)) := by
  unfold State.fetch at h
  split at h
  · exact absurd h (by simp)
  · exact ⟨by omega, (Option.some.inj h).symm⟩

theorem State.fetch_eq_none {s : State} : s.fetch = none ↔ 0xFFE < s.pc.toNat := by
  unfold State.fetch
  split <;> simp <;> omega

/-- The end of a cycle gives a next state exactly when the cycle did. -/
theorem closeCycle_eq_next {r : Result} {t : State} (h : closeCycle r = .next t) :
    ∃ u, r = .next u ∧ t = u.endCycle := by
  cases r with
  | next u => exact ⟨u, rfl, (Host.Outcome.next.inj h).symm⟩
  | fault f => exact absurd h (by simp [closeCycle])
  | refused f => exact absurd h (by simp [closeCycle])

@[simp] theorem closeCycle_next (u : State) : closeCycle (.next u) = .next u.endCycle := rfl

/-- The machine has no Host fault. -/
theorem no_fault (f : Fault) : False := nomatch f

end Sys2Proof.Machine
end

