-- ==== Sys2Proof/Laws/Flags.lean ====
section
/-! SUPPORT. What the two orders of a flag-writing instruction's writes leave in each register (spec/42_alu.md R101),
and that they leave everything else alone. -/

namespace Sys2Proof.Machine

theorem flagByte_eq_zero_or_one (c : Bool) : flagByte c = 0 ∨ flagByte c = 1 := by
  cases c <;> decide

theorem flagByte_eq_one {c : Bool} : flagByte c = 1 ↔ c = true := by
  cases c <;> decide

/-- Result first, flag second: where both go to VF, the flag survives. -/
theorem State.reg_resultThenFlag (s : State) (x k : Nibble) (r : Byte) (f : Bool) :
    (s.resultThenFlag x r f).reg k = if k = regF then flagByte f else if k = x then r else s.reg k := by
  simp only [State.resultThenFlag, State.reg_setReg]

/-- Flag first, then the shift on the current V[x]: where both go to VF, the shifted flag survives. -/
theorem State.reg_flagThenShiftRight (s : State) (x k : Nibble) :
    (s.flagThenShiftRight x).reg k =
      if k = x then (if x = regF then lowBit (s.reg x) else s.reg x) >>> 1
      else if k = regF then lowBit (s.reg x) else s.reg k := by
  simp only [State.flagThenShiftRight, State.setFlag, State.reg_setReg]

theorem State.reg_flagThenShiftLeft (s : State) (x k : Nibble) :
    (s.flagThenShiftLeft x).reg k =
      if k = x then (if x = regF then highBit (s.reg x) else s.reg x) <<< 1
      else if k = regF then highBit (s.reg x) else s.reg k := by
  simp only [State.flagThenShiftLeft, State.setFlag, State.reg_setReg]

/-- The paired writes change the registers and nothing else. -/
theorem State.resultThenFlag_frame (s : State) (x : Nibble) (r : Byte) (f : Bool) :
    s.resultThenFlag x r f = { s with v := (s.resultThenFlag x r f).v } := rfl

theorem State.flagThenShiftRight_frame (s : State) (x : Nibble) :
    s.flagThenShiftRight x = { s with v := (s.flagThenShiftRight x).v } := rfl

theorem State.flagThenShiftLeft_frame (s : State) (x : Nibble) :
    s.flagThenShiftLeft x = { s with v := (s.flagThenShiftLeft x).v } := rfl

/-- A skip is what 41_skip.md R96 says it is. -/
theorem State.skips_skipIf (s : State) (c : Bool) :
    s.skips ((s.skipIf c).setOutcome (.done false)) (c = true) := by
  cases c
  · exact ⟨rfl, fun h => absurd h (by decide), fun _ => rfl⟩
  · exact ⟨rfl, fun _ => rfl, fun h => absurd rfl h⟩

end Sys2Proof.Machine
end

