-- ==== Sys2Proof/Laws/PerInstr.lean ====
section
/-! SUPPORT. Statements for all instructions, one lemma per constructor. EncodedInRow: the word of an instruction is
selected by the row of the opcode map that carries the instruction's mnemonic (spec/30_encoding.md R64, R65). -/

namespace Sys2Proof.Laws.EncodedInRow

/-- The word of i lies in the row of R64 that carries i's mnemonic, so it is a legal word. -/
def Statement (i : Instr) : Prop :=
  i.row.mnemonic = i.mnemonic ∧ i.row ∈ rows ∧ i.row.selects (encode i) = true

theorem selects_wordNNN (m : String) (op : Nibble) (nnn : Imm12) :
    Row.selects ⟨m, wordNNN op 0, 0xF000⟩ (wordNNN op nnn) = true := by
  simp only [Row.selects, beq_iff_eq, wordNNN]
  apply BitVec.eq_of_getLsbD_eq
  intro i hi
  interval_cases i <;> simp

theorem selects_wordXNN (m : String) (op x : Nibble) (nn : Byte) :
    Row.selects ⟨m, wordXNN op 0 0, 0xF000⟩ (wordXNN op x nn) = true := by
  simp only [Row.selects, beq_iff_eq, wordXNN]
  apply BitVec.eq_of_getLsbD_eq
  intro i hi
  interval_cases i <;> simp

theorem selects_wordFixedNN (m : String) (op x : Nibble) (nn : Byte) :
    Row.selects ⟨m, wordXNN op 0 nn, 0xF0FF⟩ (wordXNN op x nn) = true := by
  simp only [Row.selects, beq_iff_eq, wordXNN]
  apply BitVec.eq_of_getLsbD_eq
  intro i hi
  interval_cases i <;> simp

theorem selects_wordXYN (m : String) (op x y n : Nibble) :
    Row.selects ⟨m, wordXYN op 0 0 0, 0xF000⟩ (wordXYN op x y n) = true := by
  simp only [Row.selects, beq_iff_eq, wordXYN]
  apply BitVec.eq_of_getLsbD_eq
  intro i hi
  interval_cases i <;> simp

theorem selects_wordFixedN (m : String) (op x y n : Nibble) :
    Row.selects ⟨m, wordXYN op 0 0 n, 0xF00F⟩ (wordXYN op x y n) = true := by
  simp only [Row.selects, beq_iff_eq, wordXYN]
  apply BitVec.eq_of_getLsbD_eq
  intro i hi
  interval_cases i <;> simp

theorem cls : Statement .cls := by unfold Statement; decide
theorem ret : Statement .ret := by unfold Statement; decide
theorem jp (nnn : Imm12) : Statement (.jp nnn) :=
  ⟨rfl, by simp [Instr.row, Instr.rowIndex, rows, rowsA, rowsB, rowsC], selects_wordNNN _ _ _⟩
theorem call (nnn : Imm12) : Statement (.call nnn) :=
  ⟨rfl, by simp [Instr.row, Instr.rowIndex, rows, rowsA, rowsB, rowsC], selects_wordNNN _ _ _⟩
theorem seImm (x : Nibble) (nn : Byte) : Statement (.seImm x nn) :=
  ⟨rfl, by simp [Instr.row, Instr.rowIndex, rows, rowsA, rowsB, rowsC], selects_wordXNN _ _ _ _⟩
theorem sneImm (x : Nibble) (nn : Byte) : Statement (.sneImm x nn) :=
  ⟨rfl, by simp [Instr.row, Instr.rowIndex, rows, rowsA, rowsB, rowsC], selects_wordXNN _ _ _ _⟩
theorem seReg (x : Nibble) (y : Nibble) : Statement (.seReg x y) :=
  ⟨rfl, by simp [Instr.row, Instr.rowIndex, rows, rowsA, rowsB, rowsC], selects_wordFixedN _ _ _ _ _⟩
theorem ldImm (x : Nibble) (nn : Byte) : Statement (.ldImm x nn) :=
  ⟨rfl, by simp [Instr.row, Instr.rowIndex, rows, rowsA, rowsB, rowsC], selects_wordXNN _ _ _ _⟩
theorem addImm (x : Nibble) (nn : Byte) : Statement (.addImm x nn) :=
  ⟨rfl, by simp [Instr.row, Instr.rowIndex, rows, rowsA, rowsB, rowsC], selects_wordXNN _ _ _ _⟩
theorem ldReg (x : Nibble) (y : Nibble) : Statement (.ldReg x y) :=
  ⟨rfl, by simp [Instr.row, Instr.rowIndex, rows, rowsA, rowsB, rowsC], selects_wordFixedN _ _ _ _ _⟩
theorem orReg (x : Nibble) (y : Nibble) : Statement (.orReg x y) :=
  ⟨rfl, by simp [Instr.row, Instr.rowIndex, rows, rowsA, rowsB, rowsC], selects_wordFixedN _ _ _ _ _⟩
theorem andReg (x : Nibble) (y : Nibble) : Statement (.andReg x y) :=
  ⟨rfl, by simp [Instr.row, Instr.rowIndex, rows, rowsA, rowsB, rowsC], selects_wordFixedN _ _ _ _ _⟩
theorem xorReg (x : Nibble) (y : Nibble) : Statement (.xorReg x y) :=
  ⟨rfl, by simp [Instr.row, Instr.rowIndex, rows, rowsA, rowsB, rowsC], selects_wordFixedN _ _ _ _ _⟩
theorem addReg (x : Nibble) (y : Nibble) : Statement (.addReg x y) :=
  ⟨rfl, by simp [Instr.row, Instr.rowIndex, rows, rowsA, rowsB, rowsC], selects_wordFixedN _ _ _ _ _⟩
theorem subReg (x : Nibble) (y : Nibble) : Statement (.subReg x y) :=
  ⟨rfl, by simp [Instr.row, Instr.rowIndex, rows, rowsA, rowsB, rowsC], selects_wordFixedN _ _ _ _ _⟩
theorem shr (x : Nibble) (y : Nibble) : Statement (.shr x y) :=
  ⟨rfl, by simp [Instr.row, Instr.rowIndex, rows, rowsA, rowsB, rowsC], selects_wordFixedN _ _ _ _ _⟩
theorem subnReg (x : Nibble) (y : Nibble) : Statement (.subnReg x y) :=
  ⟨rfl, by simp [Instr.row, Instr.rowIndex, rows, rowsA, rowsB, rowsC], selects_wordFixedN _ _ _ _ _⟩
theorem shl (x : Nibble) (y : Nibble) : Statement (.shl x y) :=
  ⟨rfl, by simp [Instr.row, Instr.rowIndex, rows, rowsA, rowsB, rowsC], selects_wordFixedN _ _ _ _ _⟩
theorem sneReg (x : Nibble) (y : Nibble) : Statement (.sneReg x y) :=
  ⟨rfl, by simp [Instr.row, Instr.rowIndex, rows, rowsA, rowsB, rowsC], selects_wordFixedN _ _ _ _ _⟩
theorem ldI (nnn : Imm12) : Statement (.ldI nnn) :=
  ⟨rfl, by simp [Instr.row, Instr.rowIndex, rows, rowsA, rowsB, rowsC], selects_wordNNN _ _ _⟩
theorem jpV0 (nnn : Imm12) : Statement (.jpV0 nnn) :=
  ⟨rfl, by simp [Instr.row, Instr.rowIndex, rows, rowsA, rowsB, rowsC], selects_wordNNN _ _ _⟩
theorem rnd (x : Nibble) (nn : Byte) : Statement (.rnd x nn) :=
  ⟨rfl, by simp [Instr.row, Instr.rowIndex, rows, rowsA, rowsB, rowsC], selects_wordXNN _ _ _ _⟩
theorem drw (x : Nibble) (y : Nibble) (n : Nibble) : Statement (.drw x y n) :=
  ⟨rfl, by simp [Instr.row, Instr.rowIndex, rows, rowsA, rowsB, rowsC], selects_wordXYN _ _ _ _ _⟩
theorem skp (x : Nibble) : Statement (.skp x) :=
  ⟨rfl, by simp [Instr.row, Instr.rowIndex, rows, rowsA, rowsB, rowsC], selects_wordFixedNN _ _ _ _⟩
theorem sknp (x : Nibble) : Statement (.sknp x) :=
  ⟨rfl, by simp [Instr.row, Instr.rowIndex, rows, rowsA, rowsB, rowsC], selects_wordFixedNN _ _ _ _⟩
theorem ldVxDT (x : Nibble) : Statement (.ldVxDT x) :=
  ⟨rfl, by simp [Instr.row, Instr.rowIndex, rows, rowsA, rowsB, rowsC], selects_wordFixedNN _ _ _ _⟩
theorem ldVxK (x : Nibble) : Statement (.ldVxK x) :=
  ⟨rfl, by simp [Instr.row, Instr.rowIndex, rows, rowsA, rowsB, rowsC], selects_wordFixedNN _ _ _ _⟩
theorem ldDTVx (x : Nibble) : Statement (.ldDTVx x) :=
  ⟨rfl, by simp [Instr.row, Instr.rowIndex, rows, rowsA, rowsB, rowsC], selects_wordFixedNN _ _ _ _⟩
theorem ldSTVx (x : Nibble) : Statement (.ldSTVx x) :=
  ⟨rfl, by simp [Instr.row, Instr.rowIndex, rows, rowsA, rowsB, rowsC], selects_wordFixedNN _ _ _ _⟩
theorem addI (x : Nibble) : Statement (.addI x) :=
  ⟨rfl, by simp [Instr.row, Instr.rowIndex, rows, rowsA, rowsB, rowsC], selects_wordFixedNN _ _ _ _⟩
theorem ldF (x : Nibble) : Statement (.ldF x) :=
  ⟨rfl, by simp [Instr.row, Instr.rowIndex, rows, rowsA, rowsB, rowsC], selects_wordFixedNN _ _ _ _⟩
theorem ldB (x : Nibble) : Statement (.ldB x) :=
  ⟨rfl, by simp [Instr.row, Instr.rowIndex, rows, rowsA, rowsB, rowsC], selects_wordFixedNN _ _ _ _⟩
theorem storeRegs (x : Nibble) : Statement (.storeRegs x) :=
  ⟨rfl, by simp [Instr.row, Instr.rowIndex, rows, rowsA, rowsB, rowsC], selects_wordFixedNN _ _ _ _⟩
theorem loadRegs (x : Nibble) : Statement (.loadRegs x) :=
  ⟨rfl, by simp [Instr.row, Instr.rowIndex, rows, rowsA, rowsB, rowsC], selects_wordFixedNN _ _ _ _⟩

end Sys2Proof.Laws.EncodedInRow
end

