-- ==== Sys2Proof/Tests/Slice0.lean ====
section
/-! SUPPORT. The model's own tests: ill-formed terms that a check refuses, one hand-written word per constructor, one
or two small steps per instruction from the vectors of spec/95_test_vectors.md, and a witness for the hypotheses of
every statement that has some. Expected values are the spec's, never the model's own answers. -/

namespace Sys2Proof.Tests

open Sys2Proof Sys2Proof.Machine

/-! Well-formedness: each check refuses an ill-formed term -/

/-- nn is not y || n (R62). -/
theorem test_wf_refuses_nn : (Fields.mk 0xA 0xB 0xC 0xD 0xCE 0xBCD).nnAgrees = false := by decide
/-- nnn is not x || y || n (R62). -/
theorem test_wf_refuses_nnn : (Fields.mk 0xA 0xB 0xC 0xD 0xCD 0xBCE).nnnAgrees = false := by decide
/-- Both checks together (R62). -/
theorem test_wf_refuses_fields : (Fields.mk 0xA 0xB 0xC 0xD 0xCE 0xBCD).wellFormed = false ∧
    (Fields.mk 0xA 0xB 0xC 0xD 0xCD 0xBCE).wellFormed = false := by decide
/-- The source example decode(0xAB, 0xCD) (95_test_vectors.md S1). -/
theorem test_wf_accepts_fields : decodeFields 0xAB 0xCD = ⟨0xA, 0xB, 0xC, 0xD, 0xCD, 0xBCD⟩ ∧
    (decodeFields 0xAB 0xCD).wellFormed = true := by decide
/-- Illegal words (R67; T130 to T143): no row, no instruction. -/
theorem test_illegal_words :
    [0x0000, 0x00E1, 0x00FE, 0x01E0, 0x0123, 0x5121, 0x812F, 0x8128, 0x9121, 0xE19F, 0xE0A0, 0xF000, 0xF1FF,
      0xF075].all (fun w => !legal w && decodeWord w == none) = true := by decide
/-- Decoding rejects by name: an illegal word, and fewer than two bytes. -/
theorem test_decode_rejects : decode [0x5A, 0xB1, 0x00] = .illegal 0x5AB1 ∧ decode [0x12] = .short ∧
    decode [] = .short := by decide

/-! Decoding: one word per constructor, its digits written out from the pattern column of R64 -/

theorem test_decode_flow : decodeWord 0x00EE = some .ret ∧ decodeWord 0x1234 = some (.jp 0x234) ∧
    decodeWord 0x2ABC = some (.call 0xABC) ∧ decodeWord 0xB7F1 = some (.jpV0 0x7F1) := by decide
theorem test_decode_skip : decodeWord 0x332A = some (.seImm 0x3 0x2A) ∧ decodeWord 0x4A0F = some (.sneImm 0xA 0x0F) ∧
    decodeWord 0x51E0 = some (.seReg 0x1 0xE) ∧ decodeWord 0x9AB0 = some (.sneReg 0xA 0xB) ∧
    decodeWord 0xE79E = some (.skp 0x7) ∧ decodeWord 0xE4A1 = some (.sknp 0x4) := by decide
theorem test_decode_load : decodeWord 0x6A42 = some (.ldImm 0xA 0x42) ∧ decodeWord 0x71FF = some (.addImm 0x1 0xFF) ∧
    decodeWord 0x8120 = some (.ldReg 0x1 0x2) ∧ decodeWord 0xC30F = some (.rnd 0x3 0x0F) := by decide
theorem test_decode_alu : decodeWord 0x8121 = some (.orReg 0x1 0x2) ∧ decodeWord 0x8342 = some (.andReg 0x3 0x4) ∧
    decodeWord 0x8563 = some (.xorReg 0x5 0x6) ∧ decodeWord 0x8784 = some (.addReg 0x7 0x8) ∧
    decodeWord 0x89A5 = some (.subReg 0x9 0xA) ∧ decodeWord 0x8BC6 = some (.shr 0xB 0xC) ∧
    decodeWord 0x8DE7 = some (.subnReg 0xD 0xE) ∧ decodeWord 0x8ABE = some (.shl 0xA 0xB) := by decide
theorem test_decode_index : decodeWord 0xABCD = some (.ldI 0xBCD) ∧ decodeWord 0xF21E = some (.addI 0x2) ∧
    decodeWord 0xF529 = some (.ldF 0x5) ∧ decodeWord 0xFC33 = some (.ldB 0xC) ∧
    decodeWord 0xF955 = some (.storeRegs 0x9) ∧ decodeWord 0xF365 = some (.loadRegs 0x3) := by decide
theorem test_decode_display : decodeWord 0x00E0 = some .cls ∧ decodeWord 0xD01F = some (.drw 0x0 0x1 0xF) := by decide
theorem test_decode_timer : decodeWord 0xF507 = some (.ldVxDT 0x5) ∧ decodeWord 0xF20A = some (.ldVxK 0x2) ∧
    decodeWord 0xF815 = some (.ldDTVx 0x8) ∧ decodeWord 0xF118 = some (.ldSTVx 0x1) := by decide
/-- The encoder on the words of 95_test_vectors.md section 3.1. -/
theorem test_encode : encode (.ldI 0xBCD) = 0xABCD ∧ encode (.shl 0xA 0xB) = 0x8ABE ∧
    encode (.drw 0x0 0x1 0xF) = 0xD01F ∧ encode (.sknp 0x4) = 0xE4A1 ∧
    encodeBytes (.jp 0x234) = [0x12, 0x34] := by decide
/-- The table's own bit numbers: bits 15 to 0 of the one word. -/
theorem test_decodeTableWord : decodeTableWord 16 0x6A42 = some (.ldImm 0xA 0x42) ∧
    decodeTableWord 16 0x0000 = none := by decide

/-! One step -/

/-- The word w at pc, on a machine otherwise as after Reset but for what f changes. -/
def start (w : Nat) (f : State → State) : State := (f { State.reset with rand := some 0 }).withFetchWord 16 w

/-- The result is a next state of which p holds. -/
def gives (r : Result) (p : State → Bool) : Bool :=
  match r with
  | .next t => p t
  | .fault _ => false
  | .refused _ => false

/-- The record of the fault that the cycle returned and latched, pc being the record's. -/
def faultsWith (s : State) (r : FaultRecord) : Bool :=
  gives (step s) (fun t => t.faulted && t.faultRecord == r && t.lastOutcome == some (.fault r) && t.pc == r.pc)

/-- V[x] <- b and V[y] <- c. -/
def two (x y : Nibble) (b c : Byte) (s : State) : State := (s.setReg x b).setReg y c

/-- Key k down. -/
def press (k : Nibble) (s : State) : State := opSetKey k true s

/-- T1: 1NNN. -/
theorem test_jp : gives (step (start 0x1234 id)) (fun t => t.pc == 0x0234) = true := by decide
/-- T16: BNNN is not reduced to 12 bits. -/
theorem test_jpV0 : gives (step (start 0xBFFF (·.setReg 0 0xFF))) (fun t => t.pc == 0x10FE) = true := by decide
/-- T18: the offset register is V0, not V5. -/
theorem test_jpV0_register : gives (step (start 0xB500 (two 0 5 0x01 0x80))) (fun t => t.pc == 0x0501) = true := by decide
/-- T12: a call at 0xFFE pushes 0x1000. -/
theorem test_call : gives (step (start 0x2ABC (·.setPc 0x0FFE)))
    (fun t => t.pc == 0x0ABC && t.sp == 1 && t.stack.get 0 == 0x1000) = true := by decide
/-- T11: the seventeenth nested call. -/
theorem test_call_overflow : faultsWith (start 0x2300 (fun s => { s with sp := 16 }))
    ⟨.stackOverflow, .none, 0x0200, 0x2300, 0⟩ = true := by decide
/-- T9: return to the address after the call. -/
theorem test_ret : gives (step (start 0x00EE (fun s => { s with pc := 0x0300, sp := 1, stack := s.stack.set 0 0x0202 })))
    (fun t => t.pc == 0x0202 && t.sp == 0) = true := by decide
/-- T13: return with an empty stack. -/
theorem test_ret_underflow : faultsWith (start 0x00EE id) ⟨.stackUnderflow, .none, 0x0200, 0x00EE, 0⟩ = true := by decide

/-- T4, T17: a fetch past the end of memory. -/
theorem test_fetch_oob : faultsWith (State.reset.setPc 0x0FFF) ⟨.memOob, .fetch, 0x0FFF, 0, 0x1000⟩ = true ∧
    faultsWith (State.reset.setPc 0x10FE) ⟨.memOob, .fetch, 0x10FE, 0, 0x10FE⟩ = true := by decide
/-- T7: an odd pc is fetched as it stands. -/
theorem test_fetch_odd : gives (step (start 0x6A42 (·.setPc 0x0201)))
    (fun t => t.reg 0xA == 0x42 && t.pc == 0x0203) = true := by decide
/-- T130: the illegal word 0x0000, at the first cycle after Reset. -/
theorem test_illegal : faultsWith State.reset ⟨.illegalInstruction, .none, 0x0200, 0x0000, 0⟩ = true := by decide

/-- T19, T20: 3XNN. -/
theorem test_seImm : gives (step (start 0x332A (·.setReg 3 0x2A))) (fun t => t.pc == 0x0204) = true ∧
    gives (step (start 0x332A (·.setReg 3 0x2B))) (fun t => t.pc == 0x0202) = true := by decide
/-- T22, T23: 4XNN. -/
theorem test_sneImm : gives (step (start 0x432A (·.setReg 3 0x2A))) (fun t => t.pc == 0x0202) = true ∧
    gives (step (start 0x4300 (·.setReg 3 0x2A))) (fun t => t.pc == 0x0204) = true := by decide
/-- T24, T25: 5XY0. -/
theorem test_seReg : gives (step (start 0x5120 (two 1 2 7 7))) (fun t => t.pc == 0x0204) = true ∧
    gives (step (start 0x5120 (two 1 2 7 8))) (fun t => t.pc == 0x0202) = true := by decide
/-- T27, T28: 9XY0. -/
theorem test_sneReg : gives (step (start 0x9120 (two 1 2 7 8))) (fun t => t.pc == 0x0204) = true ∧
    gives (step (start 0x9120 (two 1 2 7 7))) (fun t => t.pc == 0x0202) = true := by decide
/-- T33, T35: the key index is the value of V4. -/
theorem test_skp : gives (step (start 0xE49E (fun s => press 0xA (s.setReg 4 0x0A)))) (fun t => t.pc == 0x0204) = true ∧
    gives (step (start 0xE49E (fun s => press 4 (s.setReg 4 0x0A)))) (fun t => t.pc == 0x0202) = true := by decide
/-- T38: key index 16. -/
theorem test_skp_fault : faultsWith (start 0xE49E (·.setReg 4 0x10))
    ⟨.keyIndex, .none, 0x0200, 0xE49E, 0x10⟩ = true := by decide
/-- T36, T37: EXA1. -/
theorem test_sknp : gives (step (start 0xE4A1 (·.setReg 4 0x0A))) (fun t => t.pc == 0x0204) = true ∧
    gives (step (start 0xE4A1 (fun s => press 0xA (s.setReg 4 0x0A)))) (fun t => t.pc == 0x0202) = true := by decide
/-- T39: not masked to 0xF. -/
theorem test_sknp_fault : faultsWith (start 0xE4A1 (fun s => press 0xF (s.setReg 4 0xFF)))
    ⟨.keyIndex, .none, 0x0200, 0xE4A1, 0xFF⟩ = true := by decide

/-- T40: 6XNN. -/
theorem test_ldImm : gives (step (start 0x6A42 id)) (fun t => t.reg 0xA == 0x42 && t.pc == 0x0202) = true := by decide
/-- T42: 7XNN wraps and leaves VF. -/
theorem test_addImm : gives (step (start 0x7120 (two 1 0xF 0xF0 0x55)))
    (fun t => t.reg 1 == 0x10 && t.reg 0xF == 0x55) = true := by decide
/-- T46: 8XY0. -/
theorem test_ldReg : gives (step (start 0x8120 (·.setReg 2 0x33))) (fun t => t.reg 1 == 0x33) = true := by decide
/-- T47: 8XY1 leaves VF. -/
theorem test_orReg : gives (step (start 0x8121 (fun s => two 1 2 0xF0 0x0F (s.setReg 0xF 0x55))))
    (fun t => t.reg 1 == 0xFF && t.reg 0xF == 0x55) = true := by decide
/-- T48: 8XY2. -/
theorem test_andReg : gives (step (start 0x8122 (two 1 2 0xF0 0x3C))) (fun t => t.reg 1 == 0x30) = true := by decide
/-- T49: 8XY3. -/
theorem test_xorReg : gives (step (start 0x8123 (two 1 2 0xF0 0x3C))) (fun t => t.reg 1 == 0xCC) = true := by decide
/-- T51 (source example S2): carry. -/
theorem test_addReg : gives (step (start 0x8124 (two 1 2 0xFF 0x01)))
    (fun t => t.reg 1 == 0x00 && t.reg 0xF == 1) = true := by decide
/-- T55: with x = F the flag survives. -/
theorem test_addReg_vf : gives (step (start 0x8F24 (two 0xF 2 0xF0 0x20))) (fun t => t.reg 0xF == 1) = true := by decide
/-- T58, T59 (source examples S3a, S3b). -/
theorem test_subReg : gives (step (start 0x8125 (two 1 2 5 3))) (fun t => t.reg 1 == 2 && t.reg 0xF == 1) = true ∧
    gives (step (start 0x8125 (two 1 2 3 5))) (fun t => t.reg 1 == 0xFE && t.reg 0xF == 0) = true := by decide
/-- T62: with x = F the difference is lost. -/
theorem test_subReg_vf : gives (step (start 0x8F25 (two 0xF 2 9 5))) (fun t => t.reg 0xF == 1) = true := by decide
/-- T65: y is ignored, the shift is logical. -/
theorem test_shr : gives (step (start 0x8126 (two 1 2 0xFF 0x10)))
    (fun t => t.reg 1 == 0x7F && t.reg 2 == 0x10 && t.reg 0xF == 1) = true := by decide
/-- T66: with x = F, VF <- 1, then VF <- 1 >> 1. -/
theorem test_shr_vf : gives (step (start 0x8F06 (·.setReg 0xF 0xFF))) (fun t => t.reg 0xF == 0) = true := by decide
/-- T67, T68: the minuend is V[y]. -/
theorem test_subnReg : gives (step (start 0x8127 (two 1 2 3 5))) (fun t => t.reg 1 == 2 && t.reg 0xF == 1) = true ∧
    gives (step (start 0x8127 (two 1 2 5 3))) (fun t => t.reg 1 == 0xFE && t.reg 0xF == 0) = true := by decide
/-- T70 (source example S4): not a rotation. -/
theorem test_shl : gives (step (start 0x810E (·.setReg 1 0x81))) (fun t => t.reg 1 == 2 && t.reg 0xF == 1) = true := by decide
/-- T73: with x = F, VF <- 1, then VF <- 1 << 1. -/
theorem test_shl_vf : gives (step (start 0x8F0E (·.setReg 0xF 0x80))) (fun t => t.reg 0xF == 2) = true := by decide
/-- T75: rand = 0xB7. -/
theorem test_rnd : gives (step (start 0xC30F (fun s => { s with rand := some 0xB7 }))) (fun t => t.reg 3 == 7) = true := by decide

/-- T79: ANNN. -/
theorem test_ldI : gives (step (start 0xAFFF (·.setI 0x1234))) (fun t => t.i == 0x0FFF) = true := by decide
/-- T81: not masked to 12 bits, VF untouched. -/
theorem test_addI : gives (step (start 0xF21E (fun s => (two 2 0xF 1 0x55 s).setI 0x0FFF)))
    (fun t => t.i == 0x1000 && t.reg 0xF == 0x55) = true := by decide
/-- T82: wraps at 16 bits. -/
theorem test_addI_wraps : gives (step (start 0xF21E (fun s => (s.setReg 2 1).setI 0xFFFF))) (fun t => t.i == 0) = true := by decide
/-- T84, T87: glyph addresses, V[x] not masked. -/
theorem test_ldF : gives (step (start 0xF029 (·.setReg 0 0x0A))) (fun t => t.i == 0x0032) = true ∧
    gives (step (start 0xF029 (·.setReg 0 0xFF))) (fun t => t.i == 0x04FB) = true := by decide
/-- T89: 156 in three digits. -/
theorem test_ldB : gives (step (start 0xF333 (fun s => (s.setReg 3 0x9C).setI 0x0300)))
    (fun t => t.mem.readBytes 0x300 3 == [1, 5, 6] && t.i == 0x0300) = true := by decide
/-- T93: nothing written, not even mem[0xFFE]. -/
theorem test_ldB_fault : faultsWith (start 0xF333 (fun s => (s.setReg 3 0x64).setI 0x0FFE))
    ⟨.memOob, .write, 0x0200, 0xF333, 0x1000⟩ = true := by decide
/-- T95: V3 is not stored, I is unchanged. -/
theorem test_storeRegs : gives (step (start 0xF255 (fun s => two 0 1 0x11 0x22 (two 2 3 0x33 0x44 (s.setI 0x0400)))))
    (fun t => t.mem.readBytes 0x400 4 == [0x11, 0x22, 0x33, 0] && t.i == 0x0400) = true := by decide
/-- T98: all or nothing. -/
theorem test_storeRegs_fault : gives (step (start 0xFF55 (fun s => (s.setReg 0 0xA0).setI 0x0FF1)))
    (fun t => t.faultRecord == ⟨.memOob, .write, 0x0200, 0xFF55, 0x1000⟩ && t.mem.read 0x0FF1 == 0) = true := by decide
/-- T101: the glyph of digit 0, in a memory that lists the default FONT's first bytes (R192). -/
theorem test_loadRegs : gives (step (start 0xF465 (·.setMem [(0, 0xF0), (1, 0x90), (2, 0x90), (3, 0x90), (4, 0xF0)])))
    (fun t => t.v.toList.take 6 == [0xF0, 0x90, 0x90, 0x90, 0xF0, 0]) = true := by decide
/-- R192: the glyphs of 0 and F in the default FONT. -/
theorem test_defaultFont : defaultFont.toList.take 5 = [0xF0, 0x90, 0x90, 0x90, 0xF0] ∧
    defaultFont.toList.drop 75 = [0xF0, 0x80, 0xF0, 0x80, 0x80] := by decide
/-- T104: no register changed. -/
theorem test_loadRegs_fault : gives (step (start 0xF265 (fun s => (s.setReg 0 0x77).setI 0x0FFE)))
    (fun t => t.faultRecord == ⟨.memOob, .read, 0x0200, 0xF265, 0x1000⟩ && t.reg 0 == 0x77) = true := by decide

/-- T121: 00E0, VF untouched. -/
theorem test_cls : gives (step (start 0x00E0 (fun s => (s.setReg 0xF 1).setPx (s.px.put 31 63 true))))
    (fun t => !t.px.get 31 63 && t.reg 0xF == 1 && t.lastOutcome == some (.done true)) = true := by decide
/-- T109: both wraps at once. -/
theorem test_drw_wraps : gives (step (start 0xD012
      (fun s => (two 0 1 0x3C 0x1F (s.setI 0x0300)).setMem (s.mem.writeBytes 0x300 [0xFF, 0x81]))))
    (fun t => t.px.get 31 60 && t.px.get 31 3 && t.px.get 0 60 && t.px.get 0 3 && !t.px.get 0 0 && t.reg 0xF == 0) = true := by decide
/-- T112: a partial overlap erases column 3 and leaves column 4. -/
theorem test_drw_collision : gives (step (start 0xD011 (fun s =>
      ((s.setI 0x0300).setMem (s.mem.writeBytes 0x300 [0xF0])).setPx ((s.px.put 0 3 true).put 0 4 true))))
    (fun t => t.px.get 0 0 && !t.px.get 0 3 && t.px.get 0 4 && t.reg 0xF == 1) = true := by decide

/-- T123: FX07. -/
theorem test_ldVxDT : gives (step (start 0xF507 (·.setDT 0x3C))) (fun t => t.reg 5 == 0x3C && t.dt == 0x3C) = true := by decide
/-- T126: BLOCKED, pc stays on the FX0A. -/
theorem test_ldVxK_blocked : gives (step (start 0xF20A id))
    (fun t => t.pc == 0x0200 && t.lastOutcome == some .blocked) = true := by decide
/-- T127: key 7. -/
theorem test_ldVxK : gives (step (start 0xF20A (press 7))) (fun t => t.reg 2 == 7 && t.pc == 0x0202) = true := by decide
/-- T124: FX15. -/
theorem test_ldDTVx : gives (step (start 0xF515 (·.setReg 5 0x3C))) (fun t => t.dt == 0x3C) = true := by decide
/-- T125: FX18. -/
theorem test_ldSTVx : gives (step (start 0xF518 (·.setReg 5 0x02))) (fun t => t.st == 2) = true := by decide

/-! Witnesses: for every statement with hypotheses, states and operands that meet them all, clause by clause, at the
boundary values -/

/-- Reset with pc at the last address a fetch succeeds from. -/
def last (w : Nat) : State := start w (·.setPc 0x0FFE)

theorem witness_decoded_word : decodeWord 0x8ABE = some (.shl 0xA 0xB) := by decide
theorem witness_row_selects : ((Row.mk "SHL_Vx" 0x800E 0xF00F) ∈ rows ∧
    (Row.mk "SHL_Vx" 0x800E 0xF00F).selects 0x8ABE = true) := by decide
theorem witness_step_runs : (last 0x6A42).faulted = false ∧ (last 0x6A42).pc.toNat + 1 ≤ 0xFFF ∧
    decode [(last 0x6A42).mem.read (last 0x6A42).pc.toNat, (last 0x6A42).mem.read ((last 0x6A42).pc.toNat + 1)] =
      .instr (.ldImm 0xA 0x42) [] := by decide
theorem witness_step_next : ∃ t, exec (.ldImm 0xA 0x42) { last 0x6A42 with pc := 0x1000 } = .next t := ⟨_, rfl⟩
theorem witness_fetch_past : (State.reset.setPc 0x0FFF).faulted = false ∧
    0xFFF < (State.reset.setPc 0x0FFF).pc.toNat + 1 ∧ 0xFFF < (State.reset.setPc 0x10FE).pc.toNat + 1 := by decide
theorem witness_illegal : (last 0xF000).faulted = false ∧ (last 0xF000).fetch = some 0xF000 ∧
    legal 0xF000 = false := by decide
theorem witness_latched : ({ State.reset with faulted := true } : State).faulted = true := by decide
theorem witness_faulting : ∃ t, step (last 0x00EE) = .next t ∧ (last 0x00EE).faulted = false ∧ t.faulted = true :=
  ⟨_, rfl, by decide, by decide⟩

theorem witness_call_room : State.reset.sp.val < 16 ∧ ({ State.reset with sp := 15 } : State).sp.val < 16 := by decide
theorem witness_return_room : ({ State.reset with sp := 1 } : State).sp.val = (0 : Fin 16).val + 1 ∧
    ({ State.reset with sp := 16 } : State).sp.val = (15 : Fin 16).val + 1 := by decide
theorem witness_stack_limits : ({ State.reset with sp := 16 } : State).sp.val = 16 ∧ State.reset.sp.val = 0 := by decide
/-- The sixteenth call, and a return right after it. -/
theorem witness_balance : ∃ t, exec (.call 0x300) { State.reset with sp := 15 } = .next t ∧
    ({ State.reset with sp := 15 } : State).sp.val = (15 : Fin 16).val ∧ t.sp.val = (15 : Fin 16).val + 1 ∧
    t.stack.get 15 ≠ ({ State.reset with sp := 15 } : State).stack.get 15 := ⟨_, rfl, by decide, by decide, by decide⟩

theorem witness_key_index : (State.reset.reg 4).toNat = (0 : Fin 16).val ∧
    ((State.reset.setReg 4 15).reg 4).toNat = (15 : Fin 16).val ∧ 15 < ((State.reset.setReg 4 16).reg 4).toNat ∧
    15 < ((State.reset.setReg 4 255).reg 4).toNat := by decide
/-- The condition of a 3XNN holds at the last address, and fails. -/
theorem witness_skip : (last 0x3000).faulted = false ∧ (last 0x3000).fetch = some (formulaXNN 0x3 0 0) ∧
    (last 0x3000).reg 0 = 0 ∧ (last 0x3001).fetch = some (formulaXNN 0x3 0 1) ∧ (last 0x3001).reg 0 ≠ 1 := by decide
theorem witness_random : ({ State.reset with rand := some 0xB7 } : State).rand = some 0xB7 := by decide
theorem witness_not_random : (∀ x nn, Instr.cls ≠ .rnd x nn) ∧ ∃ t, exec .cls State.reset = .next t :=
  ⟨by decide, _, rfl⟩

theorem witness_decimal : (State.reset.setI 0x0FFD).ea 2 ≤ 0xFFF ∧ 0xFFF < (State.reset.setI 0x0FFE).ea 2 ∧
    0xFFF < (State.reset.setI 0xFFFF).ea 2 := by decide
theorem witness_block : (State.reset.setI 0x0FF0).ea (0xF : Nibble).toNat ≤ 0xFFF ∧
    (State.reset.setI 0x0FFF).ea (0 : Nibble).toNat ≤ 0xFFF ∧ 0xFFF < (State.reset.setI 0x0FF1).ea (0xF : Nibble).toNat ∧
    0xFFF < (State.reset.setI 0x1000).ea (0 : Nibble).toNat := by decide
theorem witness_sprite_oob : (2 : Nibble) ≠ 0 ∧ 0xFFF < (State.reset.setI 0x0FFF).ea ((2 : Nibble).toNat - 1) ∧
    0xFFF < (State.reset.setI 0x1234).ea ((1 : Nibble).toNat - 1) := by decide
/-- Addresses a store touches and leaves, an instruction that writes a register and one that leaves it. -/
theorem witness_block_registers : (0xE : Nibble).toNat ≤ (0xE : Nibble).toNat ∧ (0xE : Nibble).toNat < (0xF : Nibble).toNat := by
  decide
theorem witness_store_outside : ¬ (Instr.ldB 3).storesAt (State.reset.setI 0x0300) 0x0303 ∧
    ¬ (Instr.storeRegs 2).storesAt (State.reset.setI 0x0300) 0x02FF := by
  constructor
  · rintro ⟨k, hk, h⟩
    simp [State.ea, State.setI] at h
    omega
  · rintro ⟨k, _, h⟩
    simp [State.ea, State.setI] at h
    omega
theorem witness_self_modifying : (State.reset.setI 0x0200).i = (State.reset.setI 0x0200).pc ∧ 1 ≤ (1 : Nibble).toNat ∧
    (State.reset.setI 0x0200).ea (1 : Nibble).toNat ≤ 0xFFF := by decide

/-- Fifteen rows, a pixel a 1 bit lands on in the last row and column, and one that none lands on. -/
theorem witness_sprite : (List.replicate 15 (0x81 : Byte)).length ≤ 15 ∧
    spriteLights 0x3C 0x1F (List.replicate 15 0x81) 13 3 ∧ ¬ spriteLights 0x3C 0x1F (List.replicate 15 0x81) 0 0 := by
  refine ⟨by decide, ⟨14, 7, by decide⟩, ?_⟩
  rintro ⟨j, i, hj, hi, _, hc, hb⟩
  have : i = 4 := by
    have : (0 : Fin 64).val = 0 := rfl
    have : (0x3C : Byte).toNat = 60 := rfl
    omega
  subst this
  have h81 : ∀ j, j < 15 → (List.replicate 15 (0x81 : Byte)).getD j 0 = 0x81 := by decide
  rw [h81 j hj] at hb
  exact absurd hb (by decide)
theorem witness_draw : (0 : Nibble) = 0 ∧ (State.reset.setI 0x0FF1).ea ((0xF : Nibble).toNat - 1) ≤ 0xFFF ∧
    (State.reset.setI 0x0FFF).ea ((1 : Nibble).toNat - 1) ≤ 0xFFF := by decide

/-- A key down; only one down; none down. -/
theorem witness_keys : (∃ k, (press 0xF State.reset).keys.get k = true) ∧
    (∀ j : Fin 16, (press 0xF State.reset).keys.get j = true → j = 15) ∧
    ∀ k : Fin 16, State.reset.keys.get k = false := by decide
theorem witness_blocked : (last 0xF20A).faulted = false ∧ (last 0xF20A).fetch = some (formulaXNN 0xF 2 0x0A) ∧
    ∀ k : Fin 16, (last 0xF20A).keys.get k = false := by decide

theorem witness_register_kept : ∃ t, exec (.addReg 1 2) State.reset = .next t ∧ (Instr.addReg 1 2).writesReg 3 = false :=
  ⟨_, rfl, by decide⟩
theorem witness_memory_kept : ∃ t, exec (.ldImm 0 0) State.reset = .next t ∧ ¬ (Instr.ldImm 0 0).storesAt State.reset 0 :=
  ⟨_, rfl, id⟩
theorem witness_i_changes : ∃ t, exec (.ldI 0x2F0) State.reset = .next t ∧ t.i ≠ State.reset.i := ⟨_, rfl, by decide⟩
theorem witness_dt_changes : ∃ t, exec (.ldDTVx 5) (State.reset.setReg 5 1) = .next t ∧
    t.dt ≠ (State.reset.setReg 5 1).dt := ⟨_, rfl, by decide⟩
theorem witness_st_changes : ∃ t, exec (.ldSTVx 5) (State.reset.setReg 5 1) = .next t ∧
    t.st ≠ (State.reset.setReg 5 1).st := ⟨_, rfl, by decide⟩
theorem witness_stack_changes : ∃ t, exec (.call 0x300) State.reset = .next t ∧ t.sp ≠ State.reset.sp ∧
    t.stack ≠ State.reset.stack ∧ t.pc ≠ State.reset.pc := ⟨_, rfl, by decide, by decide, by decide⟩
theorem witness_px_changes : ∃ t, exec .cls (State.reset.setPx (State.reset.px.put 31 63 true)) = .next t ∧
    t.px ≠ (State.reset.setPx (State.reset.px.put 31 63 true)).px := ⟨_, rfl, by decide⟩
theorem witness_latch_changes : ∃ t, exec .ret State.reset = .next t ∧ t.faulted ≠ State.reset.faulted :=
  ⟨_, rfl, by decide⟩
/-- pc put back by a blocked cycle, pc put back by a fault, pc 2 further after a skip. -/
theorem witness_pc_changes : (∃ t, exec (.ldVxK 2) State.reset = .next t ∧ t.pc ≠ State.reset.pc) ∧
    (∃ t, exec .ret State.reset = .next t ∧ t.pc ≠ State.reset.pc) ∧
    ∃ t, exec (.seImm 0 0) State.reset = .next t ∧ t.pc ≠ State.reset.pc :=
  ⟨⟨_, rfl, by decide⟩, ⟨_, rfl, by decide⟩, ⟨_, rfl, by decide⟩⟩

/-- A state at every bound of the invariants: sixteen calls deep, the highest return addresses, the highest pc. -/
def edge : State :=
  { State.reset with pc := 0x10FE, sp := 16, stack := Vector.replicate 16 0x1000, mem := [(0x0FFF, 0xAA)] }

theorem witness_invariants : edge.Inv ∧ ∃ t, step edge = .next t :=
  ⟨⟨by decide, by decide, by decide, by decide, ⟨rfl, fun _ => rfl, fun h => absurd h (by decide)⟩⟩, _, rfl⟩
theorem witness_keys_kept : ∃ t, step (last 0xF20A) = .next t := ⟨_, rfl⟩
theorem witness_reachable : Reachable (press 7 State.reset) :=
  .operation (op := .setKey 7 true) (r := .none) .reset rfl
theorem witness_load : (0xFFF : BitVec 12).toNat + [(0xAA : Byte)].length ≤ 4096 ∧
    4096 < (0xFFF : BitVec 12).toNat + [(0xAA : Byte), 0xBB].length ∧
    (0x200 : BitVec 12).toNat + (List.replicate 3584 (0 : Byte)).length ≤ 4096 :=
  ⟨by decide, by decide, by rw [List.length_replicate]; decide⟩
theorem witness_load_outside : (0 : Nat) < [(0xAA : Byte)].length ∧
    (0xFFE < (0xFFF : BitVec 12).toNat ∨ (0xFFF : BitVec 12).toNat + [(0xAA : Byte)].length ≤ 0xFFE) := by decide
theorem witness_latch_stays : ∃ t r, operate .tick { State.reset with faulted := true } = .next (t, r) ∧
    Operation.tick ≠ .reset ∧ ({ State.reset with faulted := true } : State).faulted = true :=
  ⟨_, _, rfl, by decide, rfl⟩
/-- After Reset memory holds the parameter FONT, and after a load at 0 the default one; the first and the last digit. -/
theorem witness_font : State.reset.holdsFont Config.font ∧ (opLoad 0 defaultFont.toList State.reset).holdsFont defaultFont ∧
    (State.reset.reg 0).toNat = (0 : Nibble).toNat ∧ ((State.reset.setReg 0 0xF).reg 0).toNat = (0xF : Nibble).toNat := by
  refine ⟨unlisted_font, fun k => ?_, by decide, by decide⟩
  · have h := Memory.read_writeBytes_inside defaultFont.toList ([] : Memory) (a := 0) (k := k.val) k.isLt (by decide)
    rw [Nat.zero_add] at h
    exact h
/-- A load that overwrites the last byte, on a state at every bound of the invariants. -/
theorem witness_operation : edge.Inv ∧ ∃ t, operate (.load 0xFFF [0x55]) edge = .next (t, .ok) :=
  ⟨witness_invariants.1, _, rfl⟩
/-- T2: a jump to itself at 0x200, and one at the last address. -/
theorem witness_end : (start 0x1200 id).endOfRun ∧ (last 0x1FFE).endOfRun :=
  ⟨⟨rfl, by decide, by decide⟩, rfl, by decide, by decide⟩

end Sys2Proof.Tests
end

/-! PROOFS of the family 00_scope: what one cycle can do, said once (`State.Cycles`), and from it that every operation
of the host keeps the invariants (spec/10_state.md R26) and that a cycle always answers (spec/00_scope.md R8). -/

namespace Sys2Proof.Machine

/-! What a cycle can do -/

/-- A record that a fault leaves in the latch: it names a cause, and its fields agree with it
(60_exceptions.md R161). -/
def FaultRecord.raised (r : FaultRecord) : Prop := r.consistent ∧ r.cause ≠ .none

/-- How an instruction that executes completely moves pc and the call stack; `s.pc` is already the address after the
instruction (40_flow.md R80). A jump goes to nnn or to V0 + nnn, so to 0x10FE at most (R82, R85). -/
inductive State.Transfers (s u : State) : Prop where
  | next (hpc : u.pc = s.pc) (hsp : u.sp = s.sp) (hstack : u.stack = s.stack)
  | skip (hpc : u.pc = s.pc + 2) (hsp : u.sp = s.sp) (hstack : u.stack = s.stack)
  | jump (hpc : u.pc.toNat ≤ 0x10FE) (hsp : u.sp = s.sp) (hstack : u.stack = s.stack)
  | call (room : s.sp.val < 16) (hpc : u.pc.toNat ≤ 0x10FE) (hsp : u.sp.val = s.sp.val + 1)
      (hstack : u.stack = s.stack.set s.sp.val s.pc room)
  | ret (live : 0 < s.sp.val) (hpc : u.pc = s.stack[s.sp.val - 1]'(by omega)) (hsp : u.sp.val = s.sp.val - 1)
      (hstack : u.stack = s.stack)

/-- From s to u, an instruction executes completely, its outcome not yet noted: the keypad, the latch and the model's
own fields stay, and memory changes by bytes stored from I on (none, for most instructions). -/
def State.completes (s u : State) : Prop :=
  u = { s with v := u.v, i := u.i, pc := u.pc, dt := u.dt, st := u.st, sp := u.sp, stack := u.stack,
               mem := u.mem, px := u.px } ∧
    s.Transfers u ∧ ∃ bytes, u.mem = s.mem.writeBytes s.i.toNat bytes

/-- What the dispatch can do from a state whose pc is already advanced (40_flow.md R80): the three outcomes of
00_scope.md R8. -/
inductive State.Dispatches (s : State) : State → Prop where
  | complete {u : State} (touched : Bool) (h : s.completes u) : s.Dispatches (u.setOutcome (.done touched))
  | blocked : s.Dispatches ((s.setPc (s.pc - 2)).setOutcome .blocked)
  | fault {t : State} {r : FaultRecord} (h : s.entersFault t r) (hpc : r.pc = s.pc - 2) (hr : r.raised) : s.Dispatches t

/-- What one cycle can do, before its argument is used up (40_flow.md R80, 60_exceptions.md R167, R169). -/
inductive State.Cycles (s : State) : State → Prop where
  | latched (hf : s.faulted = true) : s.Cycles (s.setOutcome (.fault s.faultRecord))
  | fetchFault {t : State} {r : FaultRecord} (h : s.entersFault t r) (hpc : r.pc = s.pc) (hr : r.raised) : s.Cycles t
  | dispatch {t : State} (hf : s.faulted = false) (hpc : s.pc.toNat ≤ 0xFFE) (h : s.advance.Dispatches t) : s.Cycles t

/-! The bounds of jump targets and fault addresses -/

theorem zext12_toNat_le (nnn : Imm12) : (zext12 nnn).toNat ≤ 0x10FE := by
  rw [zext12, BitVec.toNat_setWidth_of_le (by decide)]
  omega

theorem jpV0_target_toNat_le (b : Byte) (nnn : Imm12) : (zext8 b + zext12 nnn).toNat ≤ 0x10FE := by
  have hb : (zext8 b).toNat = b.toNat := BitVec.toNat_setWidth_of_le (by decide)
  have hn : (zext12 nnn).toNat = nnn.toNat := BitVec.toNat_setWidth_of_le (by decide)
  rw [BitVec.toNat_add, hb, hn]
  omega

/-- A 16-bit address raised to 0x1000 is out of range and fits the record's 17 bits (60_exceptions.md R161). -/
theorem le_toNat_max_0x1000 (w : Word) : 0x1000 ≤ (BitVec.ofNat 17 (max w.toNat 0x1000)).toNat := by
  rw [BitVec.toNat_ofNat]
  omega

/-- From 0x1000 or below, neither the advance of pc nor a skip wraps (40_flow.md R80, 41_skip.md R96). -/
theorem toNat_add_two {w : Word} (h : w.toNat ≤ 0x1000) : (w + 2).toNat = w.toNat + 2 :=
  BitVec.toNat_add_of_lt (show w.toNat + 2 < 2 ^ 16 by omega)

/-! Every instruction dispatches -/

/-- An instruction that leaves pc, the call stack and memory alone. -/
theorem State.completes_of_control_kept {s u : State}
    (hu : u = { s with v := u.v, i := u.i, dt := u.dt, st := u.st, px := u.px }) : s.completes u := by
  rw [hu]
  exact ⟨rfl, .next rfl rfl rfl, [], rfl⟩

theorem State.completes_skipIf (s : State) (c : Bool) : s.completes (s.skipIf c) := by
  cases c with
  | false => exact State.completes_of_control_kept rfl
  | true => exact ⟨rfl, .skip rfl rfl rfl, [], rfl⟩

theorem State.completes_setPc (s : State) {w : Word} (hw : w.toNat ≤ 0x10FE) : s.completes (s.setPc w) :=
  ⟨rfl, .jump hw rfl rfl, [], rfl⟩

theorem State.completes_storeBytes (s : State) (bytes : List Byte) : s.completes (s.storeBytes bytes) :=
  ⟨rfl, .next rfl rfl rfl, bytes, rfl⟩

theorem State.completes_call {s u : State} (h : s.pushReturn = some u) (nnn : Imm12) :
    s.completes (u.setPc (zext12 nnn)) := by
  obtain ⟨room, rfl⟩ := State.pushReturn_eq_some h
  exact ⟨rfl, .call room (zext12_toNat_le nnn) rfl rfl, [], rfl⟩

theorem State.completes_popReturn {s u : State} (h : s.popReturn = some u) : s.completes u := by
  obtain ⟨live, rfl⟩ := State.popReturn_eq_some h
  exact ⟨rfl, .ret live rfl rfl rfl, [], rfl⟩

/-- The answer r is a next state that the dispatch can reach from s. -/
def State.Answers (s : State) (r : Result) : Prop := ∃ t, r = .next t ∧ s.Dispatches t

theorem State.answers_complete {s u : State} (touched : Bool) (h : s.completes u) :
    s.Answers (.next (u.setOutcome (.done touched))) :=
  ⟨_, rfl, .complete touched h⟩

theorem State.answers_raise (s : State) {cause : FaultCause} {kind : AccessKind} {w : Word} {addr : Nat}
    (hr : (FaultRecord.mk cause kind (s.pc - 2) w (BitVec.ofNat 17 addr)).raised) :
    s.Answers (raise s cause kind w addr) :=
  ⟨_, rfl, .fault rfl rfl hr⟩

/-- A memory instruction raises with the lowest address out of range (43_index_memory.md R126). -/
theorem State.answers_raise_memOob (s : State) {kind : AccessKind} (w : Word) (hk : kind ≠ .none) (hf : kind ≠ .fetch) :
    s.Answers (raise s .memOob kind w s.oobAddr) :=
  s.answers_raise ⟨⟨hk, le_toNat_max_0x1000 s.i, fun h => absurd h hf⟩, nofun⟩

/-- A key instruction raises with the value of V[x], above 15 (41_skip.md R94). -/
theorem State.answers_raise_keyIndex (s : State) {b : Byte} (w : Word) (hb : s.key? b = none) :
    s.Answers (raise s .keyIndex .none w b.toNat) := by
  have h15 : 15 < b.toNat := State.key?_eq_none.mp hb
  have haddr : (BitVec.ofNat 17 b.toNat).toNat = b.toNat := by
    rw [BitVec.toNat_ofNat]
    omega
  refine s.answers_raise ⟨⟨rfl, ?_, ?_⟩, nofun⟩
  all_goals
    rw [haddr]
    omega

theorem State.answers_illegalFault (s : State) (w : Word) : s.Answers (illegalFault s w) :=
  s.answers_raise ⟨⟨rfl, rfl⟩, nofun⟩

/-- A memory instruction: in range it completes, else it raises. -/
theorem State.answers_bounded {s u : State} (len : Nat) (touched : Bool) {kind : AccessKind} (w : Word)
    (hu : s.completes u) (hk : kind ≠ .none) (hf : kind ≠ .fetch) :
    s.Answers (if s.inBounds len then .next (u.setOutcome (.done touched)) else raise s .memOob kind w s.oobAddr) := by
  split
  · exact State.answers_complete touched hu
  · exact s.answers_raise_memOob w hk hf

/-- Every instruction answers with one of the things the dispatch can do. -/
theorem exec_answers (i : Instr) (s : State) : s.Answers (exec i s) := by
  cases i with
  | cls => exact State.answers_complete true (State.completes_of_control_kept rfl)
  | ldImm | addImm | ldReg | orReg | andReg | xorReg | addReg | subReg | shr | subnReg | shl | rnd | ldI | addI | ldF
  | ldVxDT | ldDTVx | ldSTVx => exact State.answers_complete false (State.completes_of_control_kept rfl)
  | seImm | sneImm | seReg | sneReg => exact State.answers_complete false (s.completes_skipIf _)
  | jp nnn => exact State.answers_complete false (s.completes_setPc (zext12_toNat_le nnn))
  | jpV0 nnn => exact State.answers_complete false (s.completes_setPc (jpV0_target_toNat_le (s.reg 0) nnn))
  | call nnn =>
    simp only [exec, execCall]
    split
    next u hu => exact State.answers_complete false (State.completes_call hu nnn)
    next => exact s.answers_raise ⟨⟨rfl, rfl⟩, nofun⟩
  | ret =>
    simp only [exec, execRet]
    split
    next u hu => exact State.answers_complete false (State.completes_popReturn hu)
    next => exact s.answers_raise ⟨⟨rfl, rfl⟩, nofun⟩
  | drw x y n =>
    exact State.answers_bounded _ true _ (State.completes_of_control_kept rfl) nofun nofun
  | ldB x => exact State.answers_bounded _ false _ (s.completes_storeBytes _) nofun nofun
  | storeRegs x => exact State.answers_bounded _ false _ (s.completes_storeBytes _) nofun nofun
  | loadRegs x => exact State.answers_bounded _ false _ (State.completes_of_control_kept rfl) nofun nofun
  | skp x =>
    simp only [exec, execSkp]
    split
    next down _ => exact State.answers_complete false (s.completes_skipIf down)
    next hkey => exact s.answers_raise_keyIndex _ hkey
  | sknp x =>
    simp only [exec, execSknp]
    split
    next down _ => exact State.answers_complete false (s.completes_skipIf (!down))
    next hkey => exact s.answers_raise_keyIndex _ hkey
  | ldVxK x =>
    simp only [exec, execLdVxK]
    split
    next => exact ⟨_, rfl, .blocked⟩
    next => exact State.answers_complete false (State.completes_of_control_kept rfl)

theorem State.Answers.cycles {s : State} {r : Result} (h : s.advance.Answers r) (hf : s.faulted = false)
    (hpc : s.pc.toNat ≤ 0xFFE) : ∃ t, r = .next t ∧ s.Cycles t := by
  obtain ⟨t, ht, hd⟩ := h
  exact ⟨t, ht, .dispatch hf hpc hd⟩

/-- Every cycle has a next state, and it is one of the things a cycle can do. -/
theorem cycleBody_cycles (s : State) : ∃ t, cycleBody s = .next t ∧ s.Cycles t := by
  unfold cycleBody
  split
  next hf => exact ⟨_, rfl, .latched hf⟩
  next hf =>
    have hopen : s.faulted = false := Bool.eq_false_iff.mpr hf
    split
    next hfetch =>
      have hpc : 0xFFE < s.pc.toNat := State.fetch_eq_none.mp hfetch
      exact ⟨_, rfl, .fetchFault rfl rfl ⟨⟨nofun, le_toNat_max_0x1000 s.pc, fun _ => ⟨rfl, hpc⟩⟩, nofun⟩⟩
    next w hfetch =>
      obtain ⟨hpc, -⟩ := State.fetch_eq_some hfetch
      split
      next => exact (s.advance.answers_illegalFault w).cycles hopen hpc
      next i _ => exact (exec_answers i s.advance).cycles hopen hpc

/-- Every step has a next state: what the cycle did, closed. -/
theorem step_cycles (s : State) : ∃ t, step s = .next t.endCycle ∧ s.Cycles t := by
  obtain ⟨t, ht, h⟩ := cycleBody_cycles s
  exact ⟨t, by rw [step, ht, closeCycle_next], h⟩

/-! The invariants -/

/-- The return addresses on the stack are in memory or right after it (10_state.md R26 (d)). -/
def State.returnsBounded (s : State) : Prop := ∀ k : Fin 16, k.val < s.sp.val → (s.stack.get k).toNat ≤ 0x1000

/-- The part of the invariants that needs a proof: sp is at most 16 by its type. -/
theorem State.Inv.mk {s : State} (hpc : s.pc.toNat ≤ 0x10FE) (hstack : s.returnsBounded) (hmem : s.mem.wf = true)
    (hlatch : s.latchConsistent) : s.Inv :=
  ⟨Nat.le_of_lt_succ s.sp.isLt, hpc, hstack, hmem, hlatch⟩

/-- The invariants do not read the outcome noted for the host. -/
theorem State.Inv.setOutcome {s : State} (hs : s.Inv) (o : CycleOutcome) : (s.setOutcome o).Inv := hs

theorem State.reset_inv : State.reset.Inv :=
  .mk (by decide) nofun Memory.reset_wf ⟨rfl, fun _ => rfl, nofun⟩

/-- From an instruction's address in range, no transfer leaves the bounds of pc and of the return addresses. -/
theorem State.Transfers.bounds {s u : State} (h : s.Transfers u) (hpc : s.pc.toNat ≤ 0x1000)
    (hstack : s.returnsBounded) : u.pc.toNat ≤ 0x10FE ∧ u.returnsBounded := by
  unfold State.returnsBounded at hstack ⊢
  cases h with
  | next hpc' hsp hst =>
    rw [hpc', hsp, hst]
    exact ⟨by omega, hstack⟩
  | skip hpc' hsp hst =>
    rw [hpc', hsp, hst]
    have hpc2 : (s.pc + 2).toNat = s.pc.toNat + 2 := toNat_add_two hpc
    exact ⟨by omega, hstack⟩
  | jump hpc' hsp hst =>
    rw [hsp, hst]
    exact ⟨hpc', hstack⟩
  | call room hpc' hsp hst =>
    rw [hsp, hst]
    refine ⟨hpc', fun k hk => ?_⟩
    rw [Vector.get_eq_getElem, Vector.getElem_set]
    split
    · exact hpc
    · exact hstack k (by omega)
  | ret live hpc' hsp hst =>
    rw [hpc', hsp, hst]
    have htop : (s.stack[s.sp.val - 1]'(by omega)).toNat ≤ 0x1000 :=
      hstack ⟨s.sp.val - 1, by omega⟩ (Nat.sub_one_lt_of_lt live)
    exact ⟨by omega, fun k hk => hstack k (by omega)⟩

theorem State.completes_inv {s u : State} (h : s.advance.completes u) (hs : s.Inv) (hpc : s.pc.toNat ≤ 0xFFE)
    (hf : s.faulted = false) : u.Inv := by
  obtain ⟨hframe, htransfer, bytes, hmem⟩ := h
  obtain ⟨-, -, hstack, hwf, hrec, hzero, -⟩ := hs
  have hadv : s.advance.pc.toNat = s.pc.toNat + 2 := toNat_add_two (by omega)
  obtain ⟨hpc', hstack'⟩ := htransfer.bounds (by omega) hstack
  have hfaulted : u.faulted = false := (congrArg State.faulted hframe).trans hf
  have hrecord : u.faultRecord = s.faultRecord := (congrArg State.faultRecord hframe).trans s.advance_faultRecord
  refine .mk hpc' hstack' (hmem ▸ Memory.writeBytes_wf bytes _ hwf) ⟨hrecord ▸ hrec, ?_, ?_⟩
  · exact fun _ => hrecord.trans (hzero hf)
  · exact fun ht => nomatch hfaulted.symm.trans ht

/-- Fault entry keeps the invariants: the record is consistent and carries the pc the cycle began at (R168). -/
theorem State.entersFault_inv {s t : State} {r : FaultRecord} (h : s.entersFault t r) (hs : s.Inv) (hpc : r.pc = s.pc)
    (hr : r.raised) : t.Inv := by
  obtain ⟨-, hpcs, hstack, hwf, -⟩ := hs
  obtain ⟨hconsistent, hcause⟩ := hr
  rw [State.entersFault] at h
  subst h
  exact .mk (hpc ▸ hpcs) hstack hwf ⟨hconsistent, nofun, fun _ => ⟨hcause, rfl⟩⟩

theorem State.Dispatches.inv {s t : State} (h : s.advance.Dispatches t) (hs : s.Inv) (hpc : s.pc.toNat ≤ 0xFFE)
    (hf : s.faulted = false) : t.Inv := by
  have hback : s.advance.pc - 2 = s.pc := BitVec.add_sub_cancel s.pc 2
  cases h with
  | complete touched hu => exact (State.completes_inv hu hs hpc hf).setOutcome _
  | blocked =>
    rw [hback]
    exact hs.setOutcome _
  | fault hentry hrpc hr => exact State.entersFault_inv (s := s) hentry hs (hrpc.trans hback) hr

theorem State.Cycles.inv {s t : State} (h : s.Cycles t) (hs : s.Inv) : t.Inv := by
  cases h with
  | latched => exact hs.setOutcome _
  | fetchFault hentry hpc hr => exact State.entersFault_inv hentry hs hpc hr
  | dispatch hf hpc hd => exact hd.inv hs hpc hf

theorem step_inv {s t : State} (hs : s.Inv) (h : step s = .next t) : t.Inv := by
  obtain ⟨u, hu, hcycle⟩ := step_cycles s
  obtain rfl : u.endCycle = t := Host.Outcome.next.inj (hu.symm.trans h)
  exact hcycle.inv hs

theorem opLoad_inv {s : State} (hs : s.Inv) (offset : BitVec 12) (bytes : List Byte) : (opLoad offset bytes s).Inv := by
  unfold opLoad
  split
  · obtain ⟨-, hpc, hstack, hwf, hlatch⟩ := hs
    exact .mk hpc hstack (Memory.writeBytes_wf bytes _ hwf) hlatch
  · exact hs

/-! The operations of the host -/

/-- `Cycle` answers with the step's state and the outcome it noted. -/
theorem operate_cycle_of_step {s t : State} {rand : Byte} (h : step { s with rand := some rand } = .next t) :
    operate (.cycle rand) s = .next (t, .outcome t.lastOutcome) := by
  simp only [operate, opCycle, h, withOutcome]

/-- Every operation answers, and from a state that meets the invariants with one that meets them. `Reset` gives the
reset state; `SetKey`, `Tick` and `ReadDisplay` touch nothing the invariants read. -/
theorem operate_inv {s : State} (hs : s.Inv) (op : Operation) : ∃ t r, operate op s = .next (t, r) ∧ t.Inv := by
  cases op with
  | reset => exact ⟨_, _, rfl, State.reset_inv⟩
  | load offset bytes => exact ⟨_, _, rfl, opLoad_inv hs offset bytes⟩
  | setKey | tick | readDisplay => exact ⟨_, _, rfl, hs⟩
  | cycle rand =>
    obtain ⟨u, hu, -⟩ := step_cycles { s with rand := some rand }
    exact ⟨_, _, operate_cycle_of_step hu, step_inv (s := { s with rand := some rand }) hs hu⟩

/-- Settles O57: an operation has one answer, and `operate_inv` gives one whose state meets the invariants. -/
theorem everyOperationKeepsTheInvariants : Obligations.EveryOperationKeepsTheInvariants := by
  intro s t op r hs h
  obtain ⟨u, q, hu, hinv⟩ := operate_inv hs op
  obtain ⟨rfl, -⟩ := Prod.mk.inj (Host.Outcome.next.inj (hu.symm.trans h))
  exact hinv

/-- Settles O49, by induction on how the state is reached. -/
theorem everyReachableStateMeetsTheInvariants : Obligations.EveryReachableStateMeetsTheInvariants := by
  intro s h
  induction h with
  | reset => exact State.reset_inv
  | operation _ hop ih => exact everyOperationKeepsTheInvariants _ _ _ _ ih hop

theorem State.Dispatches.notes_outcome {s t : State} (h : s.Dispatches t) : ∃ o, t.lastOutcome = some o := by
  cases h with
  | complete touched => exact ⟨_, rfl⟩
  | blocked => exact ⟨_, rfl⟩
  | fault hentry => exact ⟨_, congrArg State.lastOutcome hentry⟩

theorem State.Cycles.notes_outcome {s t : State} (h : s.Cycles t) : ∃ o, t.lastOutcome = some o := by
  cases h with
  | latched => exact ⟨_, rfl⟩
  | fetchFault hentry => exact ⟨_, congrArg State.lastOutcome hentry⟩
  | dispatch _ _ hd => exact hd.notes_outcome

/-- The display port is the grid row by row (00_scope.md R7, 10_state.md R22). -/
theorem displayPortBit_eq_get (d : Display) (r : Fin 32) (c : Fin 64) :
    displayPortBit d ⟨r.val * 64 + c.val, by omega⟩ = d.get r c := by
  have hrow : (r.val * 64 + c.val) / 64 = r.val := by omega
  have hcol : (r.val * 64 + c.val) % 64 = c.val := by omega
  simp only [displayPortBit, Display.get, hrow, hcol]

/-- Settles O54: every cycle notes an outcome, and the port lists the grid row by row. -/
theorem cycleAndReadDisplayAnswerTheHost : Obligations.CycleAndReadDisplayAnswerTheHost := by
  refine ⟨fun s rand => ?_, fun s => ⟨rfl, displayPortBit_eq_get s.px⟩⟩
  obtain ⟨t, ht, hcycle⟩ := step_cycles { s with rand := some rand }
  obtain ⟨o, ho⟩ := hcycle.notes_outcome
  refine ⟨t.endCycle, o, ht, ho, ?_⟩
  rw [operate_cycle_of_step ht, State.endCycle_lastOutcome, ho]

end Sys2Proof.Machine

/-! PROOFS of the family 10_state: what each instruction can change, said once (`State.Executes`), and from it the
writers of every piece of state (spec/10_state.md R11 to R24); the cycles that change nothing (R24, R25). -/

namespace Sys2Proof

/-! The instructions by what they write -/

/-- The instructions that write I (10_state.md R15). -/
def Instr.WritesI (i : Instr) : Prop := (∃ nnn, i = .ldI nnn) ∨ (∃ x, i = .addI x) ∨ ∃ x, i = .ldF x

/-- The jumps that leave the call stack alone (40_flow.md R82, R85). -/
def Instr.Jumps (i : Instr) : Prop := (∃ nnn, i = .jp nnn) ∨ ∃ nnn, i = .jpV0 nnn

/-- The six conditional skips (41_skip.md R90 to R95). -/
def Instr.Skips (i : Instr) : Prop :=
  (∃ x nn, i = .seImm x nn) ∨ (∃ x nn, i = .sneImm x nn) ∨ (∃ x y, i = .seReg x y) ∨
    (∃ x y, i = .sneReg x y) ∨ (∃ x, i = .skp x) ∨ ∃ x, i = .sknp x

/-- The instructions that can raise a fault of their own (60_exceptions.md R160). -/
def Instr.CanFault (i : Instr) : Prop :=
  i = .ret ∨ (∃ nnn, i = .call nnn) ∨ (∃ x, i = .skp x) ∨ (∃ x, i = .sknp x) ∨
    (∃ x y n, i = .drw x y n) ∨ (∃ x, i = .ldB x) ∨ (∃ x, i = .storeRegs x) ∨ ∃ x, i = .loadRegs x

end Sys2Proof

namespace Sys2Proof.Machine

/-! What an instruction can change -/

/-- What executing the instruction i can do to the state s, whose pc is already the address after i (40_flow.md R80).
Each case writes out the state it leaves, so that a field it does not name is unchanged by definition. -/
inductive State.Executes (s : State) (i : Instr) : State → Prop where
  | registers (v : Vector Byte 16) (hv : ∀ k, i.writesReg k = false → State.reg { s with v := v } k = s.reg k) :
      s.Executes i (State.setOutcome { s with v := v } (.done false))
  | index (hi : i.WritesI) (w : Word) : s.Executes i ((s.setI w).setOutcome (.done false))
  | delay (hi : ∃ x, i = .ldDTVx x) (b : Byte) : s.Executes i ((s.setDT b).setOutcome (.done false))
  | sound (hi : ∃ x, i = .ldSTVx x) (b : Byte) : s.Executes i ((s.setST b).setOutcome (.done false))
  | store (bytes : List Byte) (hi : ∀ k, k < bytes.length → i.storesAt s (s.ea k)) :
      s.Executes i ((s.storeBytes bytes).setOutcome (.done false))
  | clear (hi : i = .cls) : s.Executes i ((s.setPx Display.cleared).setOutcome (.done true))
  | draw (x y n : Nibble) (hi : i = .drw x y n) (bytes : List Byte) :
      s.Executes i ((s.draw x y bytes).setOutcome (.done true))
  | jump (hi : i.Jumps) (w : Word) : s.Executes i ((s.setPc w).setOutcome (.done false))
  | call (nnn : Imm12) (hi : i = .call nnn) (room : s.sp.val < 16) :
      s.Executes i (State.setOutcome
        { s with pc := zext12 nnn, stack := s.stack.set s.sp.val s.pc room, sp := ⟨s.sp.val + 1, by omega⟩ }
        (.done false))
  | ret (hi : i = .ret) (live : 0 < s.sp.val) :
      s.Executes i (State.setOutcome
        { s with sp := ⟨s.sp.val - 1, by omega⟩, pc := s.stack[s.sp.val - 1]'(by omega) } (.done false))
  | skip (hi : i.Skips) (c : Bool) :
      s.Executes i (State.setOutcome { s with pc := if c then s.pc + 2 else s.pc } (.done false))
  | blocked : s.Executes i ((s.setPc (s.pc - 2)).setOutcome .blocked)
  | fault (hi : i.CanFault) (r : FaultRecord) (hpc : r.pc = s.pc - 2) :
      s.Executes i { s with pc := r.pc, faulted := true, faultRecord := r, lastOutcome := some (.fault r) }

section
variable {s : State} {i : Instr}

/-- One write to a register that the table of R11 lists. -/
theorem State.Executes.setReg {x : Nibble} {b : Byte} (hx : i.writesReg x = true) :
    s.Executes i ((s.setReg x b).setOutcome (.done false)) := by
  refine .registers _ fun k hk => State.reg_setReg_other s b ?_
  rintro rfl
  exact absurd (hx.symm.trans hk) nofun

/-- The paired writes of a flag-writing instruction (42_alu.md R101), in either order: v differs at x and F alone. -/
theorem State.Executes.resultAndFlag {x : Nibble} {v : Vector Byte 16}
    (hi : ∀ k, i.writesReg k = (k == x || k == regF))
    (hv : ∀ k, k ≠ x → k ≠ regF → State.reg { s with v := v } k = s.reg k) :
    s.Executes i (State.setOutcome { s with v := v } (.done false)) := by
  refine .registers v fun k hk => ?_
  rw [hi, Bool.or_eq_false_iff] at hk
  obtain ⟨hx, hF⟩ := hk
  exact hv k (beq_eq_false_iff_ne.mp hx) (beq_eq_false_iff_ne.mp hF)

theorem State.Executes.skipIf (hi : i.Skips) (c : Bool) : s.Executes i ((s.skipIf c).setOutcome (.done false)) := by
  have h : s.skipIf c = { s with pc := if c then s.pc + 2 else s.pc } := by cases c <;> rfl
  rw [h]
  exact .skip hi c

end

/-- The answer r is a next state that executing i can leave. -/
def State.ExecAnswers (s : State) (i : Instr) (r : Result) : Prop := ∃ t, r = .next t ∧ s.Executes i t

theorem State.execAnswers_raise (s : State) {i : Instr} (hi : i.CanFault) (cause : FaultCause) (kind : AccessKind)
    (w : Word) (addr : Nat) : s.ExecAnswers i (raise s cause kind w addr) :=
  ⟨_, rfl, .fault hi _ rfl⟩

/-- A memory instruction: in range it does its work, else it raises. -/
theorem State.execAnswers_bounded {s u : State} {i : Instr} (hi : i.CanFault) (len : Nat) (kind : AccessKind) (w : Word)
    (hu : s.Executes i u) :
    s.ExecAnswers i (if s.inBounds len then .next u else raise s .memOob kind w s.oobAddr) := by
  split
  · exact ⟨u, rfl, hu⟩
  · exact s.execAnswers_raise hi _ _ _ _

/-- Every instruction answers with something `State.Executes` lists for it. -/
theorem exec_execAnswers (i : Instr) (s : State) : s.ExecAnswers i (exec i s) := by
  cases i with
  | cls => exact ⟨_, rfl, .clear rfl⟩
  | ldImm | addImm | ldReg | orReg | andReg | xorReg | rnd | ldVxDT => exact ⟨_, rfl, .setReg (beq_self_eq_true _)⟩
  | addReg x y | subReg x y | subnReg x y =>
    refine ⟨_, rfl, .resultAndFlag (x := x) (fun _ => rfl) fun k hx hF => ?_⟩
    exact (State.reg_resultThenFlag s x k _ _).trans (by rw [if_neg hF, if_neg hx])
  | shr x =>
    refine ⟨_, rfl, .resultAndFlag (x := x) (fun _ => rfl) fun k hx hF => ?_⟩
    exact (State.reg_flagThenShiftRight s x k).trans (by rw [if_neg hx, if_neg hF])
  | shl x =>
    refine ⟨_, rfl, .resultAndFlag (x := x) (fun _ => rfl) fun k hx hF => ?_⟩
    exact (State.reg_flagThenShiftLeft s x k).trans (by rw [if_neg hx, if_neg hF])
  | ldI | addI | ldF => exact ⟨_, rfl, .index (by simp [Instr.WritesI]) _⟩
  | ldDTVx x => exact ⟨_, rfl, .delay ⟨x, rfl⟩ _⟩
  | ldSTVx x => exact ⟨_, rfl, .sound ⟨x, rfl⟩ _⟩
  | seImm | sneImm | seReg | sneReg => exact ⟨_, rfl, .skipIf (by simp [Instr.Skips]) _⟩
  | jp | jpV0 => exact ⟨_, rfl, .jump (by simp [Instr.Jumps]) _⟩
  | call nnn =>
    simp only [exec, execCall]
    split
    next u hu =>
      obtain ⟨room, rfl⟩ := State.pushReturn_eq_some hu
      exact ⟨_, rfl, .call nnn rfl room⟩
    next => exact s.execAnswers_raise (by simp [Instr.CanFault]) _ _ _ _
  | ret =>
    simp only [exec, execRet]
    split
    next u hu =>
      obtain ⟨live, rfl⟩ := State.popReturn_eq_some hu
      exact ⟨_, rfl, .ret rfl live⟩
    next => exact s.execAnswers_raise (by simp [Instr.CanFault]) _ _ _ _
  | drw x y n => exact State.execAnswers_bounded (by simp [Instr.CanFault]) _ _ _ (.draw x y n rfl _)
  | ldB x =>
    exact State.execAnswers_bounded (by simp [Instr.CanFault]) _ _ _ (.store _ fun k hk => ⟨k, hk, rfl⟩)
  | storeRegs x =>
    refine State.execAnswers_bounded (by simp [Instr.CanFault]) _ _ _ (.store _ fun k hk => ⟨k, ?_, rfl⟩)
    rw [State.length_regsUpTo] at hk
    exact Nat.le_of_lt_succ hk
  | loadRegs x =>
    refine State.execAnswers_bounded (by simp [Instr.CanFault]) _ _ _ (.registers _ fun k hk => ?_)
    exact (State.reg_loadRegsUpTo s x k).trans (if_neg (of_decide_eq_false hk))
  | skp | sknp =>
    simp only [exec, execSkp, execSknp]
    split
    next => exact ⟨_, rfl, .skipIf (by simp [Instr.Skips]) _⟩
    next => exact s.execAnswers_raise (by simp [Instr.CanFault]) _ _ _ _
  | ldVxK x =>
    simp only [exec, execLdVxK]
    split
    next => exact ⟨_, rfl, .blocked⟩
    next => exact ⟨_, rfl, .setReg (beq_self_eq_true x)⟩

/-- What exec answers, it can do. -/
theorem executes_of_exec {i : Instr} {s t : State} (h : exec i s = .next t) : s.Executes i t := by
  obtain ⟨u, hu, hexec⟩ := exec_execAnswers i s
  obtain rfl : u = t := Host.Outcome.next.inj (hu.symm.trans h)
  exact hexec

/-! Who writes what -/

/-- Settles O41: registers are written by the listed writes, by the block load, and by the draw's flag. -/
theorem registersAreWrittenOnlyAsTabulated : Obligations.RegistersAreWrittenOnlyAsTabulated := by
  intro i s t k h hk
  cases executes_of_exec h with
  | registers v hv => exact hv k hk
  | draw x y n hi =>
    subst hi
    exact State.reg_setReg_other _ _ (beq_eq_false_iff_ne.mp hk)
  | _ => rfl

/-- Settles O43: of the things an instruction can do, one list of cases changes each of the five. -/
theorem specialRegistersHaveOnlyTheirWriters : Obligations.SpecialRegistersHaveOnlyTheirWriters := by
  intro i s t h
  have hexec := executes_of_exec h
  refine ⟨?_, ?_, ?_, ?_, ?_⟩
  · cases hexec with
    | index hi => exact fun _ => hi
    | _ => exact absurd rfl
  · cases hexec with
    | delay hi => exact fun _ => hi
    | _ => exact absurd rfl
  · cases hexec with
    | sound hi => exact fun _ => hi
    | _ => exact absurd rfl
  · cases hexec with
    | call nnn hi => exact fun _ => .inl ⟨nnn, hi, rfl⟩
    | ret hi live => exact fun _ => .inr ⟨hi, Nat.sub_add_cancel live⟩
    | _ => exact absurd rfl
  · cases hexec with
    | call nnn hi => exact fun _ => ⟨nnn, hi⟩
    | _ => exact absurd rfl

/-- Settles O44: pixels change by the clear and the draw, the latch by a fault, the keypad by nothing. -/
theorem displayKeypadAndLatchHaveOnlyTheirWriters : Obligations.DisplayKeypadAndLatchHaveOnlyTheirWriters := by
  intro i s t h
  have hexec := executes_of_exec h
  refine ⟨?_, ?_, ?_⟩
  · cases hexec with
    | clear hi => exact fun _ => .inl hi
    | draw x y n hi => exact fun _ => .inr ⟨x, y, n, hi⟩
    | _ => exact absurd rfl
  · cases hexec <;> rfl
  · cases hexec with
    | fault hi => exact fun _ => hi
    | _ => exact absurd rfl

/-- Settles O45: pc changes by a transfer, by a skip whose condition holds, and by a block or a fault, which put it
back. -/
theorem pcIsWrittenOnlyByTransfersAndSkips : Obligations.PcIsWrittenOnlyByTransfersAndSkips := by
  intro i s t h
  cases executes_of_exec h with
  | ret hi => exact fun _ => .inl hi
  | jump hi =>
    intro _
    obtain hjp | hjpV0 := hi
    · exact .inr (.inl hjp)
    · exact .inr (.inr (.inr (.inl hjpV0)))
  | call nnn hi => exact fun _ => .inr (.inr (.inl ⟨nnn, hi⟩))
  | skip hi c =>
    cases c with
    | false => exact absurd rfl
    | true => exact fun _ => .inr (.inr (.inr (.inr (.inl ⟨rfl, hi⟩))))
  | blocked => exact fun _ => .inr (.inr (.inr (.inr (.inr ⟨rfl, .inl rfl⟩))))
  | fault hi r hpc => exact fun _ => .inr (.inr (.inr (.inr (.inr ⟨hpc, .inr rfl⟩))))
  | _ => exact absurd rfl

/-! The invariants -/

/-- Settles O48, by what a cycle can do (`step_cycles`), each case of which keeps the invariants. -/
theorem everyCycleKeepsTheInvariants : Obligations.EveryCycleKeepsTheInvariants :=
  fun _ _ => step_inv

/-- Settles O47, the base case beside the step lemma O48 (10_state.md R26). -/
theorem invariantsHoldAtReset : Obligations.InvariantsHoldAtReset := State.reset_inv

/-! The latched cycle -/

/-- With the latch set, a step notes the record and ends the cycle (60_exceptions.md R169). -/
theorem step_of_faulted {s : State} (hf : s.faulted = true) :
    step s = .next (s.setOutcome (.fault s.faultRecord)).endCycle := by
  rw [step, cycleBody, if_pos hf, latchedCycle, closeCycle_next]

/-- Settles O12: the outcome noted and the argument used up are the model's own fields. -/
theorem aLatchedCycleChangesNothing : Obligations.ALatchedCycleChangesNothing :=
  fun _ hf => ⟨_, step_of_faulted hf, rfl, rfl⟩

@[simp] theorem opLoad_faulted (offset : BitVec 12) (bytes : List Byte) (s : State) :
    (opLoad offset bytes s).faulted = s.faulted := by
  unfold opLoad
  split <;> rfl

@[simp] theorem opLoad_faultRecord (offset : BitVec 12) (bytes : List Byte) (s : State) :
    (opLoad offset bytes s).faultRecord = s.faultRecord := by
  unfold opLoad
  split <;> rfl

/-- Settles O53: a `Cycle` is a latched one, and the operations beside it do not touch the latch. -/
theorem onlyResetClearsTheLatch : Obligations.OnlyResetClearsTheLatch := by
  refine ⟨fun s t op r h hop hf => ?_, fun s => rfl⟩
  cases op with
  | reset => exact absurd rfl hop
  | load offset bytes =>
    obtain ⟨rfl, -⟩ := Prod.mk.inj (Host.Outcome.next.inj h)
    exact ⟨(opLoad_faulted offset bytes s).trans hf, opLoad_faultRecord offset bytes s⟩
  | setKey | tick | readDisplay =>
    obtain ⟨rfl, -⟩ := Prod.mk.inj (Host.Outcome.next.inj h)
    exact ⟨hf, rfl⟩
  | cycle rand =>
    have hstep := operate_cycle_of_step (rand := rand) (step_of_faulted (s := { s with rand := some rand }) hf)
    obtain ⟨rfl, -⟩ := Prod.mk.inj (Host.Outcome.next.inj (hstep.symm.trans h))
    exact ⟨hf, rfl⟩

/-! The blocked cycle -/

/-- A step whose fetched word decodes executes the instruction on the advanced state (40_flow.md R80). -/
theorem step_of_fetch {s : State} {w : Word} {i : Instr} (hf : s.faulted = false) (hw : s.fetch = some w)
    (hi : decodeWord w = some i) : step s = closeCycle (exec i s.advance) := by
  simp only [step, cycleBody, hf, hw, hi, Bool.false_eq_true, if_false]

theorem decodeWord_keyWait : ∀ x : Nibble, decodeWord (formulaXNN 0xF x 0x0A) = some (.ldVxK x) := by
  decide

theorem State.pressed_eq_nil {s : State} : s.pressed = [] ↔ ∀ k, s.keys.get k = false := by
  simp [State.pressed]

/-- Blocking undoes the advance of pc (45_timer_key.md R146). -/
theorem blocked_advance (s : State) : blocked s.advance = .next (s.setOutcome .blocked) := by
  have hpc : s.advance.pc - 2 = s.pc := BitVec.add_sub_cancel s.pc 2
  rw [blocked, hpc]
  rfl

theorem exec_ldVxK_of_pressed_eq_nil {s : State} (x : Nibble) (h : s.pressed = []) :
    exec (.ldVxK x) s = blocked s := by
  simp only [exec, execLdVxK, h]

/-- Settles O40: the advance and the block undo each other. -/
theorem aBlockedCycleChangesNothing : Obligations.ABlockedCycleChangesNothing := by
  intro s x hf hfetch hkeys
  have hnone : s.advance.pressed = [] := State.pressed_eq_nil.mpr hkeys
  have hstep : step s = .next (s.setOutcome .blocked).endCycle := by
    rw [step_of_fetch hf hfetch (decodeWord_keyWait x), exec_ldVxK_of_pressed_eq_nil x hnone, blocked_advance,
      closeCycle_next]
  exact ⟨_, hstep, rfl, rfl⟩

end Sys2Proof.Machine

/-! PROOFS of the family 20_memory: which bytes an instruction can change, the fetch as a number, the fault of an
access past the end of memory, and what a store or a font leaves to be read (spec/20_memory.md). -/

namespace Sys2Proof.Machine

/-! Bytes outside a store -/

/-- Storing from I on changes no address but the EA(k) of the bytes stored (43_index_memory.md R126). -/
theorem State.read_storeBytes_of_ne_ea {s : State} {bs : List Byte} {a : Nat} (h : ∀ k, k < bs.length → a ≠ s.ea k) :
    (s.storeBytes bs).mem.read a = s.mem.read a := by
  refine s.read_storeBytes_outside bs ?_
  by_contra! hin
  obtain ⟨hlow, hhigh⟩ := hin
  exact h (a - s.i.toNat) (by omega) (Nat.add_sub_of_le hlow).symm

/-- Settles O42: of the things an instruction can do, only the store touches memory, and only where i stores. -/
theorem memoryIsWrittenOnlyByTheTwoStores : Obligations.MemoryIsWrittenOnlyByTheTwoStores := by
  intro i s t a h ha
  cases executes_of_exec h with
  | store bytes hi =>
    refine State.read_storeBytes_of_ne_ea fun k hk => ?_
    rintro rfl
    exact ha (hi k hk)
  | _ => rfl

/-! The fetch -/

/-- Concatenation as a number: the first part counts by the size of the second (30_encoding.md R60, R70). -/
theorem toNat_append_eq_add {m k : Nat} (a : BitVec m) (b : BitVec k) : (a ++ b).toNat = a.toNat * 2 ^ k + b.toNat := by
  rw [BitVec.toNat_append, ← Nat.shiftLeft_add_eq_or_of_lt b.isLt, Nat.shiftLeft_eq]

theorem wordOf_toNat (byte0 byte1 : Byte) : (wordOf byte0 byte1).toNat = byte0.toNat * 256 + byte1.toNat := by
  have hword : wordOf byte0 byte1 = byte0 ++ byte1 := BitVec.setWidth_append_eq_shiftLeft_setWidth_or.symm
  exact (congrArg BitVec.toNat hword).trans (toNat_append_eq_add byte0 byte1)

theorem State.fetch_of_le {s : State} (h : s.pc.toNat + 1 ≤ 0xFFF) :
    s.fetch = some (wordOf (s.mem.read s.pc.toNat) (s.mem.read (s.pc.toNat + 1))) :=
  if_neg (Nat.not_lt.mpr h)

/-- Settles O9: the fetched word is `wordOf` the two bytes, the byte at pc first. -/
theorem fetchIsBigEndian : Obligations.FetchIsBigEndian :=
  fun _ h => ⟨_, State.fetch_of_le h, wordOf_toNat _ _⟩

/-! An access past the end of memory -/

theorem wordXNN_eq_append (op x : Nibble) (nn : Byte) : wordXNN op x nn = op ++ x ++ nn := by
  apply BitVec.eq_of_getLsbD_eq
  intro k hk
  rw [wordXNN, BitVec.getLsbD_append, BitVec.getLsbD_append]
  interval_cases k <;> simp

theorem wordXYN_eq_append (op x y n : Nibble) : wordXYN op x y n = op ++ x ++ y ++ n := by
  apply BitVec.eq_of_getLsbD_eq
  intro k hk
  rw [wordXYN, BitVec.getLsbD_append, BitVec.getLsbD_append, BitVec.getLsbD_append]
  interval_cases k <;> simp

theorem wordXNN_eq_formulaXNN (op x : Nibble) (nn : Byte) : wordXNN op x nn = formulaXNN op x nn := by
  apply BitVec.eq_of_toNat_eq
  rw [wordXNN_eq_append, formulaXNN, toNat_append_eq_add, toNat_append_eq_add, BitVec.toNat_ofNat]
  omega

theorem wordXYN_eq_formulaXYN (op x y n : Nibble) : wordXYN op x y n = formulaXYN op x y n := by
  apply BitVec.eq_of_toNat_eq
  rw [wordXYN_eq_append, formulaXYN, toNat_append_eq_add, toNat_append_eq_add, toNat_append_eq_add, BitVec.toNat_ofNat]
  omega

/-- The shape of every memory instruction: where EA of the last byte is past the end, it raises before it does
anything, whatever r it would have answered (20_memory.md R46, 43_index_memory.md R126). -/
theorem State.entersFault_of_ea_gt {s : State} {k : Nat} (h : 0xFFF < s.ea k) (r : Result) (kind : AccessKind)
    (w : Word) :
    ∃ t, (if s.inBounds (k + 1) then r else raise s .memOob kind w s.oobAddr) = .next t ∧
      s.entersFault t ⟨.memOob, kind, s.pc - 2, w, BitVec.ofNat 17 (max s.i.toNat 0x1000)⟩ := by
  have hout : s.inBounds (k + 1) = false := State.inBounds_eq_false.mpr ⟨k.succ_pos, Nat.succ_lt_succ h⟩
  rw [hout]
  exact ⟨_, rfl, rfl⟩

/-- Settles O32: the four instructions check the same way; a DXYN with n above 0 reads n - 1 + 1 bytes. -/
theorem accessPastMemoryFaultsBeforeAnyChange : Obligations.AccessPastMemoryFaultsBeforeAnyChange := by
  intro s x y n
  simp only [← wordXNN_eq_formulaXNN, ← wordXYN_eq_formulaXYN]
  refine ⟨fun h => State.entersFault_of_ea_gt h _ _ _, fun h => State.entersFault_of_ea_gt h _ _ _,
    fun h => State.entersFault_of_ea_gt h _ _ _, fun hn h => ?_⟩
  have hpos : 0 < n.toNat := Nat.pos_of_ne_zero fun h0 => hn (BitVec.eq_of_toNat_eq h0)
  have hfault := State.entersFault_of_ea_gt h (doneTouched (s.draw x y (s.loadBytes n.toNat))) .read
    (encode (.drw x y n))
  rwa [Nat.sub_add_cancel hpos] at hfault

/-! A store and the fetch after it -/

theorem exec_storeRegs_of_ea_le {s : State} {x : Nibble} (h : s.ea x.toNat ≤ 0xFFF) :
    exec (.storeRegs x) s = done (s.storeBytes (s.regsUpTo x)) :=
  if_pos (State.inBounds_iff.mpr (.inr (Nat.succ_le_succ h)))

theorem State.getElem_regsUpTo (s : State) (x k : Nibble) (hk : k.toNat < (s.regsUpTo x).length) :
    (s.regsUpTo x)[k.toNat] = s.reg k := by
  simp [State.regsUpTo, State.reg, Vector.get_eq_getElem]

/-- After the stores of FX55, EA(k) reads as V[k] for every k up to x (43_index_memory.md R124). -/
theorem State.read_storeRegs {s : State} {x k : Nibble} (h : s.ea x.toNat ≤ 0xFFF) (hk : k.toNat ≤ x.toNat) :
    (s.storeBytes (s.regsUpTo x)).mem.read (s.ea k.toNat) = s.reg k := by
  have hlen : k.toNat < (s.regsUpTo x).length := by
    rw [State.length_regsUpTo]
    exact Nat.lt_succ_of_le hk
  have hfit : s.i.toNat + (s.regsUpTo x).length ≤ 0x1000 := by
    rw [State.length_regsUpTo]
    exact Nat.succ_le_succ h
  rw [s.read_storeBytes_inside _ hlen hfit, State.getElem_regsUpTo]

/-- Settles O33: with I = pc the two bytes fetched stand at EA(0) and EA(1), which the store has just written. -/
theorem aStoreIsSeenByTheNextFetch : Obligations.AStoreIsSeenByTheNextFetch := by
  intro s x hi hx h
  refine ⟨_, exec_storeRegs_of_ea_le h, ?_⟩
  have hpc : s.pc.toNat = s.ea 0 := congrArg BitVec.toNat hi.symm
  have hin : s.pc.toNat + 1 ≤ 0xFFF := by
    rw [hpc]
    exact (Nat.add_le_add_left hx s.i.toNat).trans h
  have h0 : (s.storeBytes (s.regsUpTo x)).mem.read s.pc.toNat = s.reg 0 := by
    rw [hpc]
    exact State.read_storeRegs (k := 0) h (Nat.zero_le _)
  have h1 : (s.storeBytes (s.regsUpTo x)).mem.read (s.pc.toNat + 1) = s.reg 1 := by
    rw [hpc]
    exact State.read_storeRegs (k := 1) h hx
  rw [← h0, ← h1]
  exact State.fetch_of_le hin

/-! The glyph of a digit -/

/-- The product of FX29 fits 16 bits for every V[x] (43_index_memory.md R122). -/
theorem glyphAddr_toNat (b : Byte) : (glyphAddr b).toNat = b.toNat * 5 := by
  have hb : (zext8 b).toNat = b.toNat := BitVec.toNat_setWidth_of_le (by decide)
  have hmul : (zext8 b * 5).toNat = (zext8 b).toNat * 5 :=
    BitVec.toNat_mul_of_lt (show (zext8 b).toNat * 5 < 2 ^ 16 by omega)
  rw [glyphAddr, hmul, hb]

/-- Settles O56: FX29 points I at 5*d, where the font holds the glyph of d, and leaves memory alone. -/
theorem digitAddressIsItsGlyph : Obligations.DigitAddressIsItsGlyph := by
  intro s font x d hfont hd
  refine ⟨_, rfl, rfl, fun j => ?_⟩
  have haddr : (s.setI (glyphAddr (s.reg x))).ea j.val = d.toNat * 5 + j.val := by
    rw [State.ea, State.setI_i, glyphAddr_toNat, hd]
  exact (congrArg s.mem.read haddr).trans (hfont ⟨d.toNat * 5 + j.val, _⟩)

end Sys2Proof.Machine

/-! PROOFS of the family 30_encoding: the six fields of a word and the words of fields as numbers, the round trip
between instructions and words in both directions, the decoder against the opcode map, and the fault of a word that no
row selects (spec/30_encoding.md). -/

namespace Sys2Proof

open Machine

/-! The decoder's fields and the encoder's words as numbers -/

theorem toNat_extractLsb'_eq_div_mod {m : Nat} (start len : Nat) (b : BitVec m) :
    (b.extractLsb' start len).toNat = b.toNat / 2 ^ start % 2 ^ len := by
  rw [BitVec.extractLsb'_toNat, Nat.shiftRight_eq_div_pow]

theorem highByte_toNat (w : Word) : (highByte w).toNat = w.toNat / 256 :=
  (toNat_extractLsb'_eq_div_mod 8 8 w).trans (by omega)

theorem lowByte_toNat (w : Word) : (lowByte w).toNat = w.toNat % 256 :=
  (toNat_extractLsb'_eq_div_mod 0 8 w).trans (by omega)

section
variable (byte0 byte1 : Byte)

theorem decodeFields_op_toNat : (decodeFields byte0 byte1).op.toNat = byte0.toNat / 16 :=
  (toNat_extractLsb'_eq_div_mod 4 4 byte0).trans (by omega)

theorem decodeFields_x_toNat : (decodeFields byte0 byte1).x.toNat = byte0.toNat % 16 :=
  (toNat_extractLsb'_eq_div_mod 0 4 byte0).trans (by omega)

theorem decodeFields_y_toNat : (decodeFields byte0 byte1).y.toNat = byte1.toNat / 16 :=
  (toNat_extractLsb'_eq_div_mod 4 4 byte1).trans (by omega)

theorem decodeFields_n_toNat : (decodeFields byte0 byte1).n.toNat = byte1.toNat % 16 :=
  (toNat_extractLsb'_eq_div_mod 0 4 byte1).trans (by omega)

/-- nnn = x || nn (R62). -/
theorem decodeFields_nnn : (decodeFields byte0 byte1).nnn = (decodeFields byte0 byte1).x ++ byte1 :=
  BitVec.setWidth_append_eq_shiftLeft_setWidth_or.symm

theorem decodeFields_nnn_toNat :
    (decodeFields byte0 byte1).nnn.toNat = byte0.toNat % 16 * 256 + byte1.toNat := by
  rw [decodeFields_nnn, toNat_append_eq_add, decodeFields_x_toNat]
  rfl

/-- nn = y || n (R62). -/
theorem decodeFields_nnAgrees : (decodeFields byte0 byte1).nnAgrees = true := by
  have hnn : (decodeFields byte0 byte1).y ++ (decodeFields byte0 byte1).n = byte1 :=
    BitVec.extractLsb'_append_extractLsb' (w := 4) (len := 4)
  refine beq_iff_eq.mpr (hnn.symm.trans ?_)
  rw [← BitVec.setWidth_append_eq_shiftLeft_setWidth_or, BitVec.setWidth_eq]

/-- nnn = x || y || n (R62). -/
theorem decodeFields_nnnAgrees : (decodeFields byte0 byte1).nnnAgrees = true := by
  refine beq_iff_eq.mpr (BitVec.eq_of_getLsbD_eq fun k hk => ?_)
  rw [decodeFields]
  interval_cases k <;> simp

end

theorem formulaXYN_toNat (op x y n : Nibble) :
    (formulaXYN op x y n).toNat = op.toNat * 0x1000 + x.toNat * 0x100 + y.toNat * 0x10 + n.toNat := by
  rw [formulaXYN, BitVec.toNat_ofNat]
  omega

theorem formulaXNN_toNat (op x : Nibble) (nn : Byte) :
    (formulaXNN op x nn).toNat = op.toNat * 0x1000 + x.toNat * 0x100 + nn.toNat := by
  rw [formulaXNN, BitVec.toNat_ofNat]
  omega

theorem formulaNNN_toNat (op : Nibble) (nnn : Imm12) :
    (formulaNNN op nnn).toNat = op.toNat * 0x1000 + nnn.toNat := by
  rw [formulaNNN, BitVec.toNat_ofNat]
  omega

theorem wordNNN_eq_append (op : Nibble) (nnn : Imm12) : wordNNN op nnn = op ++ nnn :=
  BitVec.setWidth_append_eq_shiftLeft_setWidth_or.symm

theorem wordNNN_eq_formulaNNN (op : Nibble) (nnn : Imm12) : wordNNN op nnn = formulaNNN op nnn := by
  apply BitVec.eq_of_toNat_eq
  rw [wordNNN_eq_append, toNat_append_eq_add, formulaNNN_toNat]
  rfl

/-- Settles O5: each formula as a number, and the word as `wordOf` its two bytes. -/
theorem decodedFieldsFollowTheFormulas : Obligations.DecodedFieldsFollowTheFormulas := by
  intro byte0 byte1
  have hop := decodeFields_op_toNat byte0 byte1
  have hnnn := decodeFields_nnn_toNat byte0 byte1
  have hwf : (decodeFields byte0 byte1).wellFormed = true :=
    Bool.and_eq_true_iff.mpr ⟨decodeFields_nnAgrees byte0 byte1, decodeFields_nnnAgrees byte0 byte1⟩
  refine ⟨hop, decodeFields_x_toNat byte0 byte1, decodeFields_y_toNat byte0 byte1, decodeFields_n_toNat byte0 byte1,
    rfl, hnnn, hwf, ?_⟩
  rw [wordOf_toNat, hop, hnnn]
  omega

/-! The fields of a word -/

/-- The six fields of a word: what the decoder reads from its two bytes (R62). -/
def fieldsOf (w : Word) : Fields := decodeFields (highByte w) (lowByte w)

theorem decodeWord_eq_select (w : Word) : decodeWord w = select (fieldsOf w) := rfl

section
variable (w : Word)

/-- Decoding then encoding by the pattern with x, y, n gives the word back (R70). -/
theorem wordXYN_fieldsOf : wordXYN (fieldsOf w).op (fieldsOf w).x (fieldsOf w).y (fieldsOf w).n = w := by
  apply BitVec.eq_of_toNat_eq
  rw [wordXYN_eq_formulaXYN, formulaXYN_toNat, fieldsOf, decodeFields_op_toNat, decodeFields_x_toNat,
    decodeFields_y_toNat, decodeFields_n_toNat, highByte_toNat, lowByte_toNat]
  omega

/-- Decoding then encoding by the pattern with x and nn gives the word back (R70). -/
theorem wordXNN_fieldsOf : wordXNN (fieldsOf w).op (fieldsOf w).x (fieldsOf w).nn = w := by
  have hnn : (fieldsOf w).nn.toNat = w.toNat % 256 := lowByte_toNat w
  apply BitVec.eq_of_toNat_eq
  rw [wordXNN_eq_formulaXNN, formulaXNN_toNat, hnn, fieldsOf, decodeFields_op_toNat, decodeFields_x_toNat,
    highByte_toNat]
  omega

/-- Decoding then encoding by the pattern with nnn gives the word back (R70). -/
theorem wordNNN_fieldsOf : wordNNN (fieldsOf w).op (fieldsOf w).nnn = w := by
  apply BitVec.eq_of_toNat_eq
  rw [wordNNN_eq_formulaNNN, formulaNNN_toNat, fieldsOf, decodeFields_op_toNat, decodeFields_nnn_toNat, highByte_toNat,
    lowByte_toNat]
  omega

end

/-- Settles O6: the three patterns are the numbers of R70, and each gives a word back from its fields. -/
theorem encodingFromFieldsFollowsTheFormulas : Obligations.EncodingFromFieldsFollowsTheFormulas :=
  ⟨wordXYN_eq_formulaXYN, wordXNN_eq_formulaXNN, wordNNN_eq_formulaNNN, fun w => ⟨highByte_toNat w, lowByte_toNat w⟩,
    fun w => ⟨(wordXYN_eq_formulaXYN _ _ _ _).symm.trans (wordXYN_fieldsOf w),
      (wordXNN_eq_formulaXNN _ _ _).symm.trans (wordXNN_fieldsOf w),
      (wordNNN_eq_formulaNNN _ _).symm.trans (wordNNN_fieldsOf w)⟩⟩

/-! Encoding, then decoding -/

theorem fieldsOf_wordXNN (op x : Nibble) (nn : Byte) :
    fieldsOf (wordXNN op x nn) = ⟨op, x, nn.extractLsb' 4 4, nn.extractLsb' 0 4, nn, x ++ nn⟩ := by
  have hhigh : highByte (wordXNN op x nn) = op ++ x := by
    rw [wordXNN_eq_append]
    exact BitVec.extractLsb'_append_eq_left
  have hlow : lowByte (wordXNN op x nn) = nn := by
    rw [wordXNN_eq_append]
    exact BitVec.extractLsb'_append_eq_right
  have hop : (op ++ x).extractLsb' 4 4 = op := BitVec.extractLsb'_append_eq_left
  have hx : (op ++ x).extractLsb' 0 4 = x := BitVec.extractLsb'_append_eq_right
  rw [fieldsOf, hhigh, hlow, decodeFields, hop, hx]
  exact congrArg (Fields.mk op x _ _ nn) BitVec.setWidth_append_eq_shiftLeft_setWidth_or.symm

theorem fieldsOf_wordXYN (op x y n : Nibble) :
    fieldsOf (wordXYN op x y n) = ⟨op, x, y, n, y ++ n, x ++ (y ++ n)⟩ := by
  have hword : wordXYN op x y n = wordXNN op x (y ++ n) := by
    rw [wordXYN_eq_append, wordXNN_eq_append]
    exact BitVec.append_assoc
  have hy : (y ++ n).extractLsb' 4 4 = y := BitVec.extractLsb'_append_eq_left
  have hn : (y ++ n).extractLsb' 0 4 = n := BitVec.extractLsb'_append_eq_right
  rw [hword, fieldsOf_wordXNN, hy, hn]

theorem fieldsOf_wordNNN (op : Nibble) (nnn : Imm12) :
    fieldsOf (wordNNN op nnn) =
      ⟨op, nnn.extractLsb' 8 4, (nnn.extractLsb' 0 8).extractLsb' 4 4, (nnn.extractLsb' 0 8).extractLsb' 0 4,
        nnn.extractLsb' 0 8, nnn⟩ := by
  have hnnn : nnn.extractLsb' 8 4 ++ nnn.extractLsb' 0 8 = nnn := BitVec.extractLsb'_append_extractLsb'
  have hword : wordNNN op nnn = wordXNN op (nnn.extractLsb' 8 4) (nnn.extractLsb' 0 8) := by
    rw [wordNNN_eq_append, wordXNN_eq_append]
    exact (congrArg (op ++ ·) hnnn.symm).trans BitVec.append_assoc.symm
  rw [hword, fieldsOf_wordXNN, hnnn]

/-- The dispatch finds every instruction from the fields of its own word: op, and n or nn where the row fixes it, are
digits, and the operands are read from their places (R64, R66). -/
theorem decodeWord_encode (i : Instr) : decodeWord (encode i) = some i := by
  rw [decodeWord_eq_select]
  cases i with
  | cls | ret => rfl
  | jp | call | ldI | jpV0 => exact congrArg select (fieldsOf_wordNNN _ _)
  | seReg | ldReg | orReg | andReg | xorReg | addReg | subReg | shr | subnReg | shl | sneReg | drw =>
    exact congrArg select (fieldsOf_wordXYN _ _ _ _)
  | seImm | sneImm | ldImm | addImm | rnd | skp | sknp | ldVxDT | ldVxK | ldDTVx | ldSTVx | addI | ldF | ldB
  | storeRegs | loadRegs => exact congrArg select (fieldsOf_wordXNN _ _ _)

/-- Where a word decodes, so does every byte list that begins with its two bytes. -/
theorem decode_of_decodeWord {w : Word} {i : Instr} (h : decodeWord w = some i) (rest : List Byte) :
    decode (highByte w :: lowByte w :: rest) = .instr i rest := by
  rw [decodeWord] at h
  rw [decode, h]

/-- Settles O1, by the pattern of the instruction's word (`decodeWord_encode`). -/
theorem decodingAnEncodedInstructionGivesItBack : Obligations.DecodingAnEncodedInstructionGivesItBack :=
  fun i => ⟨decodeWord_encode i, decode_of_decodeWord (decodeWord_encode i)⟩

/-- Settles O7, by running the decoder on the nine words. -/
theorem sampleWordsDecodeAsTheSpecSays : Obligations.SampleWordsDecodeAsTheSpecSays := by
  unfold Obligations.SampleWordsDecodeAsTheSpecSays
  decide

/-! Decoding, then encoding -/

section
variable {w : Word} {i : Instr} {op n : Nibble} {nn : Byte} {nnn : Imm12}

theorem wordNNN_of_op (hop : (fieldsOf w).op = op) : wordNNN op (fieldsOf w).nnn = w :=
  hop ▸ wordNNN_fieldsOf w

theorem wordNNN_of_op_nnn (hop : (fieldsOf w).op = op) (hnnn : (fieldsOf w).nnn = nnn) : wordNNN op nnn = w :=
  hnnn ▸ wordNNN_of_op hop

theorem wordXNN_of_op (hop : (fieldsOf w).op = op) : wordXNN op (fieldsOf w).x (fieldsOf w).nn = w :=
  hop ▸ wordXNN_fieldsOf w

theorem wordXNN_of_op_nn (hop : (fieldsOf w).op = op) (hnn : (fieldsOf w).nn = nn) :
    wordXNN op (fieldsOf w).x nn = w :=
  hnn ▸ wordXNN_of_op hop

theorem wordXYN_of_op (hop : (fieldsOf w).op = op) :
    wordXYN op (fieldsOf w).x (fieldsOf w).y (fieldsOf w).n = w :=
  hop ▸ wordXYN_fieldsOf w

theorem wordXYN_of_op_n (hop : (fieldsOf w).op = op) (hn : (fieldsOf w).n = n) :
    wordXYN op (fieldsOf w).x (fieldsOf w).y n = w :=
  hn ▸ wordXYN_of_op hop

/-- One test of the dispatch. -/
theorem encode_of_ite {c : Prop} [Decidable c] {a b : Option Instr} (ha : c → a = some i → encode i = w)
    (hb : ¬ c → b = some i → encode i = w) : (if c then a else b) = some i → encode i = w := by
  split
  next hc => exact ha hc
  next hc => exact hb hc

theorem encode_of_some {j : Instr} (hj : encode j = w) : some j = some i → encode i = w :=
  fun h => Option.some.inj h ▸ hj

theorem encode_of_select0 (hop : (fieldsOf w).op = 0x0) : select0 (fieldsOf w) = some i → encode i = w := by
  unfold select0
  iterate 2 refine encode_of_ite (fun hnnn => encode_of_some (wordNNN_of_op_nnn hop hnnn)) fun _ => ?_
  exact nofun

theorem encode_of_select8 (hop : (fieldsOf w).op = 0x8) : select8 (fieldsOf w) = some i → encode i = w := by
  unfold select8
  iterate 9 refine encode_of_ite (fun hn => encode_of_some (wordXYN_of_op_n hop hn)) fun _ => ?_
  exact nofun

theorem encode_of_selectE (hop : (fieldsOf w).op = 0xE) : selectE (fieldsOf w) = some i → encode i = w := by
  unfold selectE
  iterate 2 refine encode_of_ite (fun hnn => encode_of_some (wordXNN_of_op_nn hop hnn)) fun _ => ?_
  exact nofun

theorem encode_of_selectF (hop : (fieldsOf w).op = 0xF) : selectF (fieldsOf w) = some i → encode i = w := by
  unfold selectF
  iterate 9 refine encode_of_ite (fun hnn => encode_of_some (wordXNN_of_op_nn hop hnn)) fun _ => ?_
  exact nofun

/-- Whichever instruction the dispatch takes, op and what else it tested are the digits of that instruction's word
(R66, R70). -/
theorem encode_of_decodeWord : decodeWord w = some i → encode i = w := by
  rw [decodeWord_eq_select, select]
  refine encode_of_ite encode_of_select0 fun h0 => ?_
  refine encode_of_ite (fun hop => encode_of_some (wordNNN_of_op hop)) fun h1 => ?_
  refine encode_of_ite (fun hop => encode_of_some (wordNNN_of_op hop)) fun h2 => ?_
  refine encode_of_ite (fun hop => encode_of_some (wordXNN_of_op hop)) fun h3 => ?_
  refine encode_of_ite (fun hop => encode_of_some (wordXNN_of_op hop)) fun h4 => ?_
  refine encode_of_ite (fun hop => encode_of_ite (fun hn => encode_of_some (wordXYN_of_op_n hop hn)) nofun)
    fun h5 => ?_
  refine encode_of_ite (fun hop => encode_of_some (wordXNN_of_op hop)) fun h6 => ?_
  refine encode_of_ite (fun hop => encode_of_some (wordXNN_of_op hop)) fun h7 => ?_
  refine encode_of_ite encode_of_select8 fun h8 => ?_
  refine encode_of_ite (fun hop => encode_of_ite (fun hn => encode_of_some (wordXYN_of_op_n hop hn)) nofun)
    fun h9 => ?_
  refine encode_of_ite (fun hop => encode_of_some (wordNNN_of_op hop)) fun hA => ?_
  refine encode_of_ite (fun hop => encode_of_some (wordNNN_of_op hop)) fun hB => ?_
  refine encode_of_ite (fun hop => encode_of_some (wordXNN_of_op hop)) fun hC => ?_
  refine encode_of_ite (fun hop => encode_of_some (wordXYN_of_op hop)) fun hD => ?_
  refine encode_of_ite encode_of_selectE fun hE => ?_
  exact encode_of_selectF (by bv_omega)

end

/-- Settles O2, by the test or tests of the dispatch that the word passed (`encode_of_decodeWord`). -/
theorem aDecodedWordIsItsInstructionsWord : Obligations.ADecodedWordIsItsInstructionsWord :=
  fun _ _ => encode_of_decodeWord

/-! The decoder against the opcode map -/

open Laws.EncodedInRow in
/-- Every instruction's word lies in the instruction's own row: the lemmas of Laws/PerInstr.lean, in the order of the
constructors (R64). -/
theorem encodedInRow (i : Instr) : Statement i :=
  i.casesOn cls ret jp call seImm sneImm seReg ldImm addImm ldReg orReg andReg xorReg addReg subReg shr subnReg shl sneReg
    ldI jpV0 rnd drw skp sknp ldVxDT ldVxK ldDTVx ldSTVx addI ldF ldB storeRegs loadRegs

theorem Row.selects_iff {r : Row} {w : Word} : r.selects w = true ↔ w &&& r.mask = r.value := beq_iff_eq

section
variable {w : Word} {r : Row} {op n : Nibble} {nn : Byte}

/-- A row that selects a word fixes, among the word's fields, the bits that its mask covers. -/
theorem Row.fields_of_selects (h : r.selects w = true) :
    (fieldsOf w).op &&& (fieldsOf r.mask).op = (fieldsOf r.value).op ∧
      (fieldsOf w).n &&& (fieldsOf r.mask).n = (fieldsOf r.value).n ∧
      (fieldsOf w).nn &&& (fieldsOf r.mask).nn = (fieldsOf r.value).nn := by
  rw [← Row.selects_iff.mp h]
  simp only [fieldsOf, decodeFields, highByte, lowByte, BitVec.extractLsb'_and, and_self]

theorem Row.op_of_selects (h : r.selects w = true) (hmask : (fieldsOf r.mask).op = BitVec.allOnes 4) :
    (fieldsOf w).op = (fieldsOf r.value).op := by
  obtain ⟨hop, -, -⟩ := Row.fields_of_selects h
  rwa [hmask, BitVec.and_allOnes] at hop

theorem Row.n_of_selects (h : r.selects w = true) (hmask : (fieldsOf r.mask).n = BitVec.allOnes 4) :
    (fieldsOf w).n = (fieldsOf r.value).n := by
  obtain ⟨-, hn, -⟩ := Row.fields_of_selects h
  rwa [hmask, BitVec.and_allOnes] at hn

theorem Row.nn_of_selects (h : r.selects w = true) (hmask : (fieldsOf r.mask).nn = BitVec.allOnes 8) :
    (fieldsOf w).nn = (fieldsOf r.value).nn := by
  obtain ⟨-, -, hnn⟩ := Row.fields_of_selects h
  rwa [hmask, BitVec.and_allOnes] at hnn

/-! The word of a row's fixed digits and the selected word's own operands, one lemma per mask and pattern of R64 -/

theorem eq_of_selects {v : Word} (h : r.selects w = true) (hmask : r.mask = 0xFFFF) (hv : r.value = v) : v = w := by
  rw [Row.selects_iff, hmask, hv] at h
  exact h.symm.trans BitVec.and_allOnes

theorem wordNNN_of_selects (h : r.selects w = true) (hmask : r.mask = 0xF000) (hop : (fieldsOf r.value).op = op) :
    wordNNN op (fieldsOf w).nnn = w :=
  wordNNN_of_op ((Row.op_of_selects h (hmask ▸ rfl)).trans hop)

theorem wordXNN_of_selects (h : r.selects w = true) (hmask : r.mask = 0xF000) (hop : (fieldsOf r.value).op = op) :
    wordXNN op (fieldsOf w).x (fieldsOf w).nn = w :=
  wordXNN_of_op ((Row.op_of_selects h (hmask ▸ rfl)).trans hop)

theorem wordXNN_of_selects_nn (h : r.selects w = true) (hmask : r.mask = 0xF0FF) (hop : (fieldsOf r.value).op = op)
    (hnn : (fieldsOf r.value).nn = nn) : wordXNN op (fieldsOf w).x nn = w :=
  wordXNN_of_op_nn ((Row.op_of_selects h (hmask ▸ rfl)).trans hop) ((Row.nn_of_selects h (hmask ▸ rfl)).trans hnn)

theorem wordXYN_of_selects (h : r.selects w = true) (hmask : r.mask = 0xF000) (hop : (fieldsOf r.value).op = op) :
    wordXYN op (fieldsOf w).x (fieldsOf w).y (fieldsOf w).n = w :=
  wordXYN_of_op ((Row.op_of_selects h (hmask ▸ rfl)).trans hop)

theorem wordXYN_of_selects_n (h : r.selects w = true) (hmask : r.mask = 0xF00F) (hop : (fieldsOf r.value).op = op)
    (hn : (fieldsOf r.value).n = n) : wordXYN op (fieldsOf w).x (fieldsOf w).y n = w :=
  wordXYN_of_op_n ((Row.op_of_selects h (hmask ▸ rfl)).trans hop) ((Row.n_of_selects h (hmask ▸ rfl)).trans hn)

end

/-- A word that a row selects is the word of that row's instruction, with the word's fields as operands; the rows in
their order (R64). -/
theorem exists_encode_of_selects {w : Word} : ∀ r ∈ rows, r.selects w = true → ∃ i, encode i = w := by
  simp only [rows, rowsA, rowsB, rowsC, List.forall_mem_append, List.forall_mem_cons]
  refine ⟨⟨⟨fun h => ⟨.cls, eq_of_selects h rfl rfl⟩,
    fun h => ⟨.ret, eq_of_selects h rfl rfl⟩,
    fun h => ⟨.jp _, wordNNN_of_selects h rfl rfl⟩,
    fun h => ⟨.call _, wordNNN_of_selects h rfl rfl⟩,
    fun h => ⟨.seImm _ _, wordXNN_of_selects h rfl rfl⟩,
    fun h => ⟨.sneImm _ _, wordXNN_of_selects h rfl rfl⟩,
    fun h => ⟨.seReg _ _, wordXYN_of_selects_n h rfl rfl rfl⟩,
    fun h => ⟨.ldImm _ _, wordXNN_of_selects h rfl rfl⟩,
    fun h => ⟨.addImm _ _, wordXNN_of_selects h rfl rfl⟩,
    fun h => ⟨.ldReg _ _, wordXYN_of_selects_n h rfl rfl rfl⟩,
    fun h => ⟨.orReg _ _, wordXYN_of_selects_n h rfl rfl rfl⟩,
    fun h => ⟨.andReg _ _, wordXYN_of_selects_n h rfl rfl rfl⟩,
    List.forall_mem_nil _⟩,
   ⟨fun h => ⟨.xorReg _ _, wordXYN_of_selects_n h rfl rfl rfl⟩,
    fun h => ⟨.addReg _ _, wordXYN_of_selects_n h rfl rfl rfl⟩,
    fun h => ⟨.subReg _ _, wordXYN_of_selects_n h rfl rfl rfl⟩,
    fun h => ⟨.shr _ _, wordXYN_of_selects_n h rfl rfl rfl⟩,
    fun h => ⟨.subnReg _ _, wordXYN_of_selects_n h rfl rfl rfl⟩,
    fun h => ⟨.shl _ _, wordXYN_of_selects_n h rfl rfl rfl⟩,
    fun h => ⟨.sneReg _ _, wordXYN_of_selects_n h rfl rfl rfl⟩,
    fun h => ⟨.ldI _, wordNNN_of_selects h rfl rfl⟩,
    fun h => ⟨.jpV0 _, wordNNN_of_selects h rfl rfl⟩,
    fun h => ⟨.rnd _ _, wordXNN_of_selects h rfl rfl⟩,
    fun h => ⟨.drw _ _ _, wordXYN_of_selects h rfl rfl⟩,
    List.forall_mem_nil _⟩⟩,
   ⟨fun h => ⟨.skp _, wordXNN_of_selects_nn h rfl rfl rfl⟩,
    fun h => ⟨.sknp _, wordXNN_of_selects_nn h rfl rfl rfl⟩,
    fun h => ⟨.ldVxDT _, wordXNN_of_selects_nn h rfl rfl rfl⟩,
    fun h => ⟨.ldVxK _, wordXNN_of_selects_nn h rfl rfl rfl⟩,
    fun h => ⟨.ldDTVx _, wordXNN_of_selects_nn h rfl rfl rfl⟩,
    fun h => ⟨.ldSTVx _, wordXNN_of_selects_nn h rfl rfl rfl⟩,
    fun h => ⟨.addI _, wordXNN_of_selects_nn h rfl rfl rfl⟩,
    fun h => ⟨.ldF _, wordXNN_of_selects_nn h rfl rfl rfl⟩,
    fun h => ⟨.ldB _, wordXNN_of_selects_nn h rfl rfl rfl⟩,
    fun h => ⟨.storeRegs _, wordXNN_of_selects_nn h rfl rfl rfl⟩,
    fun h => ⟨.loadRegs _, wordXNN_of_selects_nn h rfl rfl rfl⟩,
    List.forall_mem_nil _⟩⟩

/-- A word is legal exactly when it is the word of an instruction (R64, R67). -/
theorem legal_iff_exists_encode {w : Word} : legal w = true ↔ ∃ i, encode i = w := by
  rw [legal, List.any_eq_true]
  constructor
  · rintro ⟨r, hr, hsel⟩
    exact exists_encode_of_selects r hr hsel
  · rintro ⟨i, rfl⟩
    obtain ⟨-, hrow, hsel⟩ := encodedInRow i
    exact ⟨i.row, hrow, hsel⟩

/-- The round trip, both ways: a word decodes to the instruction whose word it is, and to no other. -/
theorem decodeWord_eq_some_iff {w : Word} {i : Instr} : decodeWord w = some i ↔ encode i = w :=
  ⟨encode_of_decodeWord, fun h => h ▸ decodeWord_encode i⟩

theorem decodeWord_eq_none_iff {w : Word} : decodeWord w = none ↔ legal w = false := by
  rw [← Bool.not_eq_true, legal_iff_exists_encode, Option.eq_none_iff_forall_ne_some, not_exists]
  exact forall_congr' fun i => decodeWord_eq_some_iff.not

/-- Settles O3, through the encoder: the legal words are the words of instructions, each in its own row. -/
theorem decoderFollowsTheOpcodeMap : Obligations.DecoderFollowsTheOpcodeMap := by
  refine ⟨fun w => decodeWord_eq_none_iff, fun w i h => ?_⟩
  obtain ⟨-, hrow, hsel⟩ := encodedInRow i
  exact ⟨hrow, encode_of_decodeWord h ▸ hsel⟩

/-- Two rows of the map have different digits somewhere on the bits that both masks cover. -/
theorem eq_of_value_and_mask_eq :
    ∀ r ∈ rows, ∀ r' ∈ rows, r.value &&& r'.mask = r'.value &&& r.mask → r = r' := by
  decide

/-- Settles O4: two rows that select one word agree on the bits that both masks cover. -/
theorem opcodeRowsArePairwiseDisjoint : Obligations.OpcodeRowsArePairwiseDisjoint := by
  intro w r r' hr hr' hsel hsel'
  refine eq_of_value_and_mask_eq r hr r' hr' ?_
  rw [← Row.selects_iff.mp hsel, ← Row.selects_iff.mp hsel', BitVec.and_assoc, BitVec.and_assoc,
    BitVec.and_comm r.mask]

end Sys2Proof

namespace Sys2Proof.Machine

/-! The fault of an illegal word -/

/-- The fault is raised after the advance of pc and records the address before it (60_exceptions.md R164). -/
theorem illegalFault_advance (s : State) (w : Word) :
    illegalFault s.advance w = enterFault s ⟨.illegalInstruction, .none, s.pc, w, 0⟩ := by
  have hpc : s.advance.pc - 2 = s.pc := BitVec.add_sub_cancel s.pc 2
  rw [illegalFault, raise, hpc]
  rfl

theorem step_of_illegal {s : State} {w : Word} (hf : s.faulted = false) (hw : s.fetch = some w)
    (hlegal : legal w = false) :
    step s = closeCycle (enterFault s ⟨.illegalInstruction, .none, s.pc, w, 0⟩) := by
  simp only [step, cycleBody, hf, hw, decodeWord_eq_none_iff.mpr hlegal, Bool.false_eq_true, if_false,
    illegalFault_advance]

/-- Settles O11: the fault entry changes the latch, the outcome noted and, with the end of the cycle, the argument. -/
theorem illegalWordFaults : Obligations.IllegalWordFaults :=
  fun _ _ hf hw hlegal => ⟨_, step_of_illegal hf hw hlegal, rfl, rfl, rfl, rfl⟩

end Sys2Proof.Machine

/-! PROOFS of the family 40_flow: the parts of a cycle around the instruction (spec/40_flow.md R80), the jumps, the
call and the return with the limits of the call stack (R82 to R86), a skip seen from the cycle (spec/41_skip.md R96),
and the end of a run (spec/70_reset_and_hazards.md R200). -/

namespace Sys2Proof.Machine

/-! The fetched word and the decoder -/

theorem highByte_wordOf (byte0 byte1 : Byte) : highByte (wordOf byte0 byte1) = byte0 := by
  apply BitVec.eq_of_toNat_eq
  rw [highByte_toNat, wordOf_toNat]
  omega

theorem lowByte_wordOf (byte0 byte1 : Byte) : lowByte (wordOf byte0 byte1) = byte1 := by
  apply BitVec.eq_of_toNat_eq
  rw [lowByte_toNat, wordOf_toNat]
  omega

/-- Where a byte list decodes, so does the word of its first two bytes (30_encoding.md R60). -/
theorem decodeWord_wordOf_of_decode {byte0 byte1 : Byte} {rest : List Byte} {i : Instr}
    (h : decode (byte0 :: byte1 :: rest) = .instr i rest) : decodeWord (wordOf byte0 byte1) = some i := by
  rw [decodeWord, highByte_wordOf, lowByte_wordOf]
  rw [decode] at h
  split at h
  next j hj => exact hj.trans (congrArg some (Decoded.instr.inj h).1)
  next => exact absurd h nofun

/-! The cycle around the instruction -/

theorem exec_randIndex {i : Instr} {s t : State} (h : exec i s = .next t) : t.randIndex = s.randIndex := by
  cases executes_of_exec h <;> rfl

/-- Settles O8: the word of the two bytes decodes as they do, and no instruction counts the free bytes. -/
theorem stepRunsTheDecodedInstruction : Obligations.StepRunsTheDecodedInstruction := by
  intro s i rest hf hpc hdecode
  have hstep : step s = closeCycle (exec i s.advance) :=
    step_of_fetch hf (State.fetch_of_le hpc) (decodeWord_wordOf_of_decode hdecode)
  refine ⟨hstep, fun t ht => ?_⟩
  have hexec : exec i s.advance = .next t := ht
  rw [hstep, hexec, closeCycle_next, State.endCycle, exec_randIndex hexec, State.advance_randIndex]

theorem step_of_fetch_eq_none {s : State} (hf : s.faulted = false) (hw : s.fetch = none) :
    step s = closeCycle (fetchFault s) := by
  simp only [step, cycleBody, hf, hw, Bool.false_eq_true, if_false]

/-- Settles O10: the fault entry changes the latch, the outcome noted and, with the end of the cycle, the argument. -/
theorem fetchPastMemoryFaults : Obligations.FetchPastMemoryFaults := by
  intro s hf hpc
  have hnone : s.fetch = none := State.fetch_eq_none.mpr (Nat.lt_of_succ_lt_succ hpc)
  exact ⟨_, step_of_fetch_eq_none hf hnone, rfl, rfl, rfl, rfl⟩

/-! The jumps and the load of I -/

theorem zext12_toNat (nnn : Imm12) : (zext12 nnn).toNat = nnn.toNat :=
  BitVec.toNat_setWidth_of_le (by decide)

/-- The sum of BNNN is at most 0xFF + 0xFFF, so it does not wrap (40_flow.md R85). -/
theorem jpV0_target_toNat (b : Byte) (nnn : Imm12) : (zext8 b + zext12 nnn).toNat = b.toNat + nnn.toNat := by
  have hb : (zext8 b).toNat = b.toNat := BitVec.toNat_setWidth_of_le (by decide)
  rw [BitVec.toNat_add_of_lt, hb, zext12_toNat]
  rw [hb, zext12_toNat]
  omega

/-- Settles O15: each of the three sets one field, to its zero-extended immediate or the exact sum of BNNN. -/
theorem jumpsAndIndexLoadTakeTheirTargets : Obligations.JumpsAndIndexLoadTakeTheirTargets := by
  intro s nnn
  refine ⟨⟨wordNNN_eq_formulaNNN _ nnn, _, rfl, rfl, ?_⟩, ⟨wordNNN_eq_formulaNNN _ nnn, _, rfl, rfl, ?_⟩,
    wordNNN_eq_formulaNNN _ nnn, _, rfl, rfl, ?_⟩
  · exact zext12_toNat nnn
  · exact jpV0_target_toNat (s.reg 0) nnn
  · exact zext12_toNat nnn

/-! The call and the return -/

/-- 2NNN with room: the address after the call is pushed, and pc is nnn (40_flow.md R83). -/
theorem exec_call_of_room {s : State} (nnn : Imm12) (room : s.sp.val < 16) :
    exec (.call nnn) s = done { s with pc := zext12 nnn, stack := s.stack.set s.sp.val s.pc room,
                                       sp := ⟨s.sp.val + 1, by omega⟩ } := by
  simp only [exec, execCall, State.pushReturn, dif_pos room]
  rfl

/-- 00EE with sp = k + 1: the entry of number k is popped (40_flow.md R84). -/
theorem exec_ret_of_sp_eq {s : State} {k : Fin 16} (h : s.sp.val = k.val + 1) :
    exec .ret s = done { s with sp := k.castSucc, pc := s.stack.get k } := by
  simp only [exec, execRet, State.popReturn, h]
  rfl

/-- The call stack after a push: the entry at sp is the new one, the others stay (10_state.md R19). -/
theorem stack_get_set (stack : Vector Word 16) {n : Nat} (hn : n < 16) (w : Word) (k : Fin 16) :
    (stack.set n w hn).get k = if k.val = n then w else stack.get k := by
  simp only [Vector.get_eq_getElem, Vector.getElem_set, eq_comm]

/-- Settles O16: what the call with room leaves, field by field. -/
theorem callPushesTheReturnAddress : Obligations.CallPushesTheReturnAddress :=
  fun s nnn room => ⟨_, exec_call_of_room nnn room, rfl, zext12_toNat nnn, rfl, stack_get_set s.stack room s.pc⟩

/-- Settles O17: what the return above depth 0 leaves, field by field. -/
theorem returnPopsThePushedAddress : Obligations.ReturnPopsThePushedAddress :=
  fun _ _ h => ⟨_, exec_ret_of_sp_eq h, rfl, rfl, rfl⟩

/-- Settles O18: the push and the pop have no result at the two limits, where the instruction raises. -/
theorem stackLimitsFault : Obligations.StackLimitsFault := by
  intro s nnn
  refine ⟨fun h => ⟨_, ?_, rfl⟩, fun h => ⟨_, ?_, rfl⟩⟩
  · have hcall : exec (.call nnn) s = raise s .stackOverflow .none (encode (.call nnn)) 0 := by
      simp only [exec, execCall, State.pushReturn_eq_none.mpr h]
    have hword : encode (.call nnn) = formulaNNN 0x2 nnn := wordNNN_eq_formulaNNN 0x2 nnn
    rw [hcall, hword]
    rfl
  · have hret : exec .ret s = raise s .stackUnderflow .none (encode .ret) 0 := by
      simp only [exec, execRet, State.popReturn_eq_none.mpr h]
    exact hret

/-- Settles O19: the return reads the entry the call wrote, and a call writes no entry but the one at its sp. -/
theorem callAndReturnBalance : Obligations.CallAndReturnBalance := by
  constructor
  · intro s t u nnn d hsp hcall husp hentry
    have room : s.sp.val < 16 := hsp ▸ d.isLt
    obtain rfl := Host.Outcome.next.inj ((exec_call_of_room nnn room).symm.trans hcall)
    have hpushed : (s.stack.set s.sp.val s.pc room).get d = s.pc :=
      (stack_get_set s.stack room s.pc d).trans (if_pos hsp.symm)
    exact ⟨_, exec_ret_of_sp_eq husp, hentry.trans hpushed, Fin.ext hsp.symm⟩
  · intro i s t d h
    cases executes_of_exec h with
    | call nnn hi room =>
      refine fun hne => ⟨⟨nnn, hi⟩, ?_⟩
      by_contra hsp
      exact hne ((stack_get_set s.stack room s.pc d).trans (if_neg (Ne.symm hsp)))
    | _ => exact absurd rfl

/-! A skip seen from the cycle -/

/-- Settles O22: the skip of 3XNN on top of the advance. -/
theorem aSkipEndsFourOrTwoPastItsAddress : Obligations.ASkipEndsFourOrTwoPastItsAddress := by
  intro s x nn hf hfetch
  have hdecode : decodeWord (formulaXNN 0x3 x nn) = some (.seImm x nn) :=
    decodeWord_eq_some_iff.mpr (wordXNN_eq_formulaXNN 0x3 x nn)
  have hstep : step s = .next ((s.advance.skipIf (s.reg x == nn)).setOutcome (.done false)).endCycle :=
    step_of_fetch hf hfetch hdecode
  refine ⟨_, hstep, ?_, State.skipIf_mem _ _, State.skipIf_v _ _, (State.skipIf_faulted _ _).trans hf⟩
  by_cases hx : s.reg x = nn
  · simpa [hx] using BitVec.add_assoc s.pc 2 2
  · simp [hx]

/-! The end of a run -/

/-- An address of memory is the zero-extension of its low 12 bits (30_encoding.md R63). -/
theorem zext12_setWidth_of_le {w : Word} (h : w.toNat ≤ 0xFFF) : zext12 (w.setWidth 12) = w := by
  apply BitVec.eq_of_toNat_eq
  rw [zext12_toNat, BitVec.toNat_setWidth]
  omega

theorem encode_jp (nnn : Imm12) : encode (.jp nnn) = 0x1000 ||| zext12 nnn := rfl

/-- At the end of a run, the step is the jump of pc to where it stands (40_flow.md R82). -/
theorem State.endOfRun.step_eq {s : State} (h : s.endOfRun) :
    step s = .next (s.setOutcome (.done false)).endCycle := by
  obtain ⟨hsafe, hpc, hword⟩ := h
  have htarget : zext12 (s.pc.setWidth 12) = s.pc := zext12_setWidth_of_le (Nat.le_succ_of_le hpc)
  have hfetch : s.fetch = some (0x1000 ||| s.pc) := hword ▸ State.fetch_of_le (Nat.succ_le_succ hpc)
  have hdecode : decodeWord (0x1000 ||| s.pc) = some (.jp (s.pc.setWidth 12)) :=
    decodeWord_eq_some_iff.mpr (by rw [encode_jp, htarget])
  rw [step_of_fetch hsafe hfetch hdecode, exec, execJp, htarget]
  rfl

/-- Settles O55: the jump leaves pc where it stands, and the state is at the end of a run for the same reason. -/
theorem theEndOfARunIsAFixedPoint : Obligations.TheEndOfARunIsAFixedPoint :=
  fun _ h => ⟨_, h.step_eq, rfl, h⟩

end Sys2Proof.Machine

/-! PROOFS of the family 41_skip: the conditional skips on registers (spec/41_skip.md R90 to R93) and on the keypad
(R94, R95), with the fault KEY_INDEX above key 15 (spec/60_exceptions.md R166). -/

namespace Sys2Proof.Machine

/-- The shape of every skip that completes: `State.skips_skipIf`, with the tested flag read as the condition c
(41_skip.md R96). -/
theorem State.exists_skips_of_iff (s : State) {b : Bool} {c : Prop} (h : b = true ↔ c) :
    ∃ t, done (s.skipIf b) = .next t ∧ s.skips t c :=
  ⟨_, rfl, propext h ▸ s.skips_skipIf b⟩

/-- Settles O20: the four skips test their register conditions by the Boolean equality of bytes. -/
theorem registerSkipsFollowTheirConditions : Obligations.RegisterSkipsFollowTheirConditions := by
  intro s x y nn
  refine ⟨⟨wordXNN_eq_formulaXNN 0x3 x nn, ?seImm⟩, ⟨wordXNN_eq_formulaXNN 0x4 x nn, ?sneImm⟩,
    ⟨wordXYN_eq_formulaXYN 0x5 x y 0, ?seReg⟩, wordXYN_eq_formulaXYN 0x9 x y 0, ?sneReg⟩
  case seImm | seReg => exact s.exists_skips_of_iff beq_iff_eq
  case sneImm | sneReg => exact s.exists_skips_of_iff bne_iff_ne

/-- The keypad query with the index of a key is that key's flag (41_skip.md R94). -/
theorem State.key?_of_toNat_eq {s : State} {b : Byte} {k : Fin 16} (h : b.toNat = k.val) :
    s.key? b = some (s.keys.get k) := by
  simp only [State.key?, h, k.isLt, dite_true]

/-- The fault KEY_INDEX records the whole register value, zero-extended (60_exceptions.md R161, R166). -/
theorem State.entersFault_raise_keyIndex (s : State) (w : Word) (b : Byte) :
    ∃ t, raise s .keyIndex .none w b.toNat = .next t ∧
      s.entersFault t ⟨.keyIndex, .none, s.pc - 2, w, b.setWidth 17⟩ :=
  ⟨_, rfl, BitVec.ofNat_toNat 17 b ▸ rfl⟩

/-- Settles O21: the keypad query of V[x] decides between the skip and the fault. -/
theorem keySkipsFollowTheKeypad : Obligations.KeySkipsFollowTheKeypad := by
  intro s x
  constructor
  · intro k hk
    have hkey : s.key? (s.reg x) = some (s.keys.get k) := State.key?_of_toNat_eq hk
    simp only [exec, execSkp, execSknp, hkey]
    exact ⟨s.exists_skips_of_iff Iff.rfl, s.exists_skips_of_iff (Bool.not_eq_true' _).to_iff⟩
  · intro habove
    have hkey : s.key? (s.reg x) = none := State.key?_eq_none.mpr habove
    simp only [exec, execSkp, execSknp, hkey, ← wordXNN_eq_formulaXNN]
    exact ⟨s.entersFault_raise_keyIndex _ _, s.entersFault_raise_keyIndex _ _⟩

end Sys2Proof.Machine

/-! PROOFS of the family 42_alu: the loads, 7XNN and the logic operations (spec/42_alu.md R102 to R107), the additions
and subtractions with their flag (R108, R109, R111), the shifts (R110, R112), and the random byte, which CXNN alone
looks at (R113, spec/60_exceptions.md R177). -/

namespace Sys2Proof.Machine

/-! One register written -/

theorem State.writesOnly_setReg (s : State) (x : Nibble) (b : Byte) :
    s.writesOnly ((s.setReg x b).setOutcome (.done false)) x b :=
  ⟨rfl, s.reg_setReg_same x b, fun _ hk => s.reg_setReg_other b hk⟩

/-- The shape of every instruction that writes one register. -/
theorem State.exists_writesOnly (s : State) (x : Nibble) (b : Byte) :
    ∃ t, done (s.setReg x b) = .next t ∧ s.writesOnly t x b :=
  ⟨_, rfl, s.writesOnly_setReg x b⟩

/-- Settles O23: the six write V[x] alone; the sum of 7XNN is the sum of bytes, which wraps. -/
theorem loadAddAndLogicWriteOneRegister : Obligations.LoadAddAndLogicWriteOneRegister := by
  intro s x y nn
  rw [← BitVec.add_def]
  exact ⟨⟨wordXNN_eq_formulaXNN 0x6 x nn, s.exists_writesOnly x nn⟩,
    ⟨wordXNN_eq_formulaXNN 0x7 x nn, s.exists_writesOnly x (s.reg x + nn)⟩,
    ⟨wordXYN_eq_formulaXYN 0x8 x y 0, s.exists_writesOnly x (s.reg y)⟩,
    ⟨wordXYN_eq_formulaXYN 0x8 x y 1, s.exists_writesOnly x (s.reg x ||| s.reg y)⟩,
    ⟨wordXYN_eq_formulaXYN 0x8 x y 2, s.exists_writesOnly x (s.reg x &&& s.reg y)⟩,
    wordXYN_eq_formulaXYN 0x8 x y 3, s.exists_writesOnly x (s.reg x ^^^ s.reg y)⟩

/-! The result and its flag -/

/-- The shape of 8XY4, 8XY5 and 8XY7: the flag is written last, so it survives where x is F (R101). -/
theorem State.exists_writesWithFlag_resultThenFlag (s : State) (x : Nibble) (result : Byte)
    (p : Prop) [Decidable p] :
    ∃ t, done (s.resultThenFlag x result (decide p)) = .next t ∧
      s.writesWithFlag t x result (if p then 1 else 0) := by
  have hflag : flagByte (decide p) = if p then 1 else 0 := by simp only [flagByte, decide_eq_true_eq]
  refine ⟨_, rfl, rfl, ?_, fun hx => ?_, fun k hkx hkF => ?_⟩
  · rw [State.reg_setOutcome, State.reg_resultThenFlag, if_pos rfl, hflag]
  · rw [State.reg_setOutcome, State.reg_resultThenFlag, if_neg hx, if_pos rfl]
  · rw [State.reg_setOutcome, State.reg_resultThenFlag, if_neg hkF, if_neg hkx]

/-- The difference of bytes is the exact difference modulo 256 (R100). -/
theorem ofInt_toNat_sub_toNat (a b : Byte) : BitVec.ofInt 8 (a.toNat - b.toNat) = a - b := by
  apply BitVec.eq_of_toNat_eq
  rw [BitVec.toNat_ofInt, BitVec.toNat_sub]
  omega

/-- Settles O24: sum and differences of bytes wrap, and each flag is decided from the two operands. -/
theorem addAndSubtractWriteResultAndFlag : Obligations.AddAndSubtractWriteResultAndFlag := by
  intro s x y
  simp only [← BitVec.add_def, ofInt_toNat_sub_toNat]
  exact ⟨s.exists_writesWithFlag_resultThenFlag x _ _, s.exists_writesWithFlag_resultThenFlag x _ _,
    s.exists_writesWithFlag_resultThenFlag x _ _⟩

/-! The shifts -/

theorem lowBit_toNat (b : Byte) : (lowBit b).toNat = b.toNat % 2 :=
  (BitVec.toNat_and b 1).trans (Nat.and_one_is_mod b.toNat)

theorem lowBit_eq_ofNat (b : Byte) : lowBit b = BitVec.ofNat 8 (b.toNat % 2) := by
  rw [← lowBit_toNat, BitVec.ofNat_toNat, BitVec.setWidth_eq]

/-- 0x80 masks bit 7, which is set from 128 on (R112). -/
theorem highBit_eq_ite (b : Byte) : highBit b = if 128 ≤ b.toNat then 1 else 0 := by
  have hmask : b &&& 0x80 = if b.msb then 0x80 else 0 := b.and_twoPow 7
  have hmsb : b.msb = decide (128 ≤ b.toNat) := b.msb_eq_decide
  rw [highBit, hmask, hmsb]
  by_cases h : 128 ≤ b.toNat <;> simp [h, flagByte]

theorem highBit_eq_ofNat (b : Byte) : highBit b = BitVec.ofNat 8 (b.toNat / 128) := by
  rw [highBit_eq_ite]
  split
  next h =>
    have hdiv : b.toNat / 128 = 1 := by omega
    exact hdiv ▸ rfl
  next h =>
    have hdiv : b.toNat / 128 = 0 := by omega
    exact hdiv ▸ rfl

theorem ushiftRight_one_eq_ofNat (b : Byte) : b >>> 1 = BitVec.ofNat 8 (b.toNat / 2) := by
  apply BitVec.eq_of_toNat_eq
  rw [BitVec.toNat_ushiftRight, Nat.shiftRight_eq_div_pow, BitVec.toNat_ofNat]
  omega

theorem shiftLeft_one_eq_ofNat (b : Byte) : b <<< 1 = BitVec.ofNat 8 (b.toNat * 2) := by
  apply BitVec.eq_of_toNat_eq
  rw [BitVec.toNat_shiftLeft, Nat.shiftLeft_eq, BitVec.toNat_ofNat]

/-- The bit that 8FY6 puts in VF is then shifted out of it (R101). -/
theorem lowBit_ushiftRight_one (b : Byte) : lowBit b >>> 1 = 0 := by
  have hhalf : (lowBit b).toNat / 2 = 0 := by
    rw [lowBit_toNat]
    omega
  exact (ushiftRight_one_eq_ofNat (lowBit b)).trans (congrArg (BitVec.ofNat 8) hhalf)

/-- The bit that 8FYE puts in VF is then shifted left in it (R101). -/
theorem highBit_shiftLeft_one (b : Byte) : highBit b <<< 1 = if 128 ≤ b.toNat then 2 else 0 := by
  rw [highBit_eq_ite]
  split <;> rfl

/-- The shape of 8XY6 and 8XYE, u being the state after the two writes: bit goes to VF first, and V[x] is shifted
last, so that where x is F the shift is of the bit itself (R101). -/
theorem State.exists_writesWithFlag_flagThenShift {s u : State} {x : Nibble} {bit : Byte} {shift : Byte → Byte}
    (hframe : u = { s with v := u.v })
    (hreg : ∀ k, u.reg k =
      if k = x then shift (if x = regF then bit else s.reg x) else if k = regF then bit else s.reg k) :
    ∃ t, done u = .next t ∧ s.writesWithFlag t x (shift (s.reg x)) (if x = regF then shift bit else bit) := by
  refine ⟨_, rfl, congrArg (State.setOutcome · (.done false)) hframe, ?_, fun hx => ?_, fun k hkx hkF => ?_⟩
  · by_cases hx : x = regF
    · rw [State.reg_setOutcome, hreg, if_pos hx.symm, if_pos hx, if_pos hx]
    · rw [State.reg_setOutcome, hreg, if_neg (Ne.symm hx), if_pos rfl, if_neg hx]
  · rw [State.reg_setOutcome, hreg, if_pos rfl, if_neg hx]
  · rw [State.reg_setOutcome, hreg, if_neg hkx, if_neg hkF]

/-- Settles O25: the flag and the shifts as numbers, y being read by neither instruction. -/
theorem shiftsWriteFlagThenShiftedValue : Obligations.ShiftsWriteFlagThenShiftedValue := by
  intro s x y
  constructor
  · rw [← ushiftRight_one_eq_ofNat, ← lowBit_eq_ofNat, ← lowBit_ushiftRight_one (s.reg x)]
    exact State.exists_writesWithFlag_flagThenShift (shift := (· >>> 1)) (s.flagThenShiftRight_frame x)
      (s.reg_flagThenShiftRight x)
  · rw [← shiftLeft_one_eq_ofNat, ← highBit_eq_ofNat, ← highBit_shiftLeft_one]
    exact State.exists_writesWithFlag_flagThenShift (shift := (· <<< 1)) (s.flagThenShiftLeft_frame x)
      (s.reg_flagThenShiftLeft x)

/-! The random byte -/

/-- Settles O26: a named byte is the cycle's byte, and the mask clears the bits that nn lacks. -/
theorem randomIsTheCyclesByteUnderTheMask : Obligations.RandomIsTheCyclesByteUnderTheMask := by
  intro s x nn
  refine ⟨fun r hr => ?_, _, rfl, s.writesOnly_setReg x _, ?_⟩
  · have hbyte : s.randByte = r := by rw [State.randByte, hr, Option.getD_some]
    exact hbyte ▸ s.exists_writesOnly x (s.randByte &&& nn)
  · rw [State.reg_setOutcome, State.reg_setReg_same, BitVec.and_assoc, BitVec.and_not_self]
    exact BitVec.and_zero

/-- The state with another argument of the cycle and another number of the free byte (log entry 3). -/
def State.withRandom (s : State) (r : Option Byte) (n : Nat) : State := { s with rand := r, randIndex := n }

/-- The same replacement in the next state of an answer. -/
def withRandomNext (r : Option Byte) (n : Nat) : Result → Result
  | .next t => .next (t.withRandom r n)
  | .fault f => .fault f
  | .refused f => .refused f

section
variable (s : State) (r : Option Byte) (n : Nat)

@[simp] theorem State.reg_withRandom (k : Nibble) : (s.withRandom r n).reg k = s.reg k := rfl
@[simp] theorem State.key?_withRandom (b : Byte) : (s.withRandom r n).key? b = s.key? b := rfl
@[simp] theorem State.pressed_withRandom : (s.withRandom r n).pressed = s.pressed := rfl

theorem State.skipIf_withRandom (c : Bool) : (s.withRandom r n).skipIf c = (s.skipIf c).withRandom r n := by
  cases c <;> rfl

theorem State.pushReturn_withRandom :
    (s.withRandom r n).pushReturn = s.pushReturn.map (State.withRandom · r n) := by
  rw [State.pushReturn, State.pushReturn, apply_dite (Option.map _)]
  rfl

theorem State.popReturn_withRandom :
    (s.withRandom r n).popReturn = s.popReturn.map (State.withRandom · r n) := by
  rw [State.popReturn, State.popReturn, apply_dite (Option.map _)]
  rfl

theorem done_skipIf_withRandom (c : Bool) :
    done ((s.withRandom r n).skipIf c) = withRandomNext r n (done (s.skipIf c)) := by
  rw [State.skipIf_withRandom]
  rfl

/-- The shape of every memory instruction: the range check does not see the replacement. -/
theorem bounded_withRandom (len : Nat) {work fault work' fault' : Result} (hwork : work' = withRandomNext r n work)
    (hfault : fault' = withRandomNext r n fault) :
    (if (s.withRandom r n).inBounds len then work' else fault') =
      withRandomNext r n (if s.inBounds len then work else fault) := by
  subst hwork hfault
  exact (apply_ite (withRandomNext r n) _ _ _).symm

end

/-- Every instruction but CXNN commutes with the replacement: it reads neither field and writes neither. -/
theorem exec_withRandom {i : Instr} (hi : ∀ x nn, i ≠ .rnd x nn) (s : State) (r : Option Byte) (n : Nat) :
    exec i (s.withRandom r n) = withRandomNext r n (exec i s) := by
  cases i with
  | rnd x nn => exact absurd rfl (hi x nn)
  | cls | jp | ldImm | addImm | ldReg | orReg | andReg | xorReg | addReg | subReg | shr | subnReg | shl | ldI | jpV0
  | ldVxDT | ldDTVx | ldSTVx | addI | ldF => rfl
  | seImm | sneImm | seReg | sneReg => exact done_skipIf_withRandom s r n _
  | drw | ldB | storeRegs | loadRegs => exact bounded_withRandom s r n _ rfl rfl
  | call nnn =>
    simp only [exec, execCall, State.pushReturn_withRandom]
    cases s.pushReturn <;> rfl
  | ret =>
    simp only [exec, execRet, State.popReturn_withRandom]
    cases s.popReturn <;> rfl
  | skp x | sknp x =>
    simp only [exec, execSkp, execSknp, State.reg_withRandom, State.key?_withRandom]
    cases s.key? (s.reg x) with
    | none => rfl
    | some down => exact done_skipIf_withRandom s r n _
  | ldVxK x =>
    simp only [exec, execLdVxK, State.pressed_withRandom]
    cases s.pressed <;> rfl

/-- Settles O27: the replacement before the instruction is the replacement after it. -/
theorem onlyRandomLooksAtTheRandomByte : Obligations.OnlyRandomLooksAtTheRandomByte :=
  fun _ s _ r n hi h => (exec_withRandom hi s r n).trans (congrArg (withRandomNext r n) h)

end Sys2Proof.Machine

/-! PROOFS of the family 43_index_memory: the arithmetic on I, the decimal store, and the block store and load
(spec/43_index_memory.md R121 to R126). -/

namespace Sys2Proof.Machine

/-! An access whose last byte is in range -/

/-- The check of a memory instruction passes when EA of its last byte is in range (20_memory.md R46). -/
theorem State.inBounds_of_ea_le {s : State} {k : Nat} (h : s.ea k ≤ 0xFFF) : s.inBounds (k + 1) = true :=
  State.inBounds_iff.mpr (.inr (Nat.succ_le_succ h))

theorem exec_ldB_of_ea_le {s : State} (x : Nibble) (h : s.ea 2 ≤ 0xFFF) :
    exec (.ldB x) s = done (s.storeBytes (bcdDigits (s.reg x))) :=
  if_pos (State.inBounds_of_ea_le h)

theorem exec_loadRegs_of_ea_le {s : State} {x : Nibble} (h : s.ea x.toNat ≤ 0xFFF) :
    exec (.loadRegs x) s = done (s.loadRegsUpTo x) :=
  if_pos (State.inBounds_of_ea_le h)

/-! The decimal store -/

/-- After the stores of FX33, EA(k) reads as the digit of number k (43_index_memory.md R123). -/
theorem State.read_storeBytes_bcdDigits {s : State} (b : Byte) (h : s.ea 2 ≤ 0xFFF) (k : Fin 3) :
    (s.storeBytes (bcdDigits b)).mem.read (s.ea k) = (bcdDigits b)[k.val] :=
  s.read_storeBytes_inside (bcdDigits b) k.isLt (Nat.succ_le_succ h)

/-- Settles O29: each digit is read back from its address; the frame is what every instruction leaves (O42). -/
theorem decimalStoreWritesThreeDigits : Obligations.DecimalStoreWritesThreeDigits := by
  intro s x h
  have hexec := exec_ldB_of_ea_le x h
  have hread := State.read_storeBytes_bcdDigits (s.reg x) h
  have hhundreds : (s.reg x / 100).toNat = (s.reg x).toNat / 100 := BitVec.toNat_udiv
  have htens : (s.reg x / 10 % 10).toNat = (s.reg x).toNat / 10 % 10 := by
    rw [BitVec.toNat_umod, BitVec.toNat_udiv]
    rfl
  have hunits : (s.reg x % 10).toNat = (s.reg x).toNat % 10 := BitVec.toNat_umod
  exact ⟨_, hexec, rfl, (congrArg BitVec.toNat (hread 0)).trans hhundreds,
    (congrArg BitVec.toNat (hread 1)).trans htens, (congrArg BitVec.toNat (hread 2)).trans hunits,
    fun a => memoryIsWrittenOnlyByTheTwoStores _ s _ a hexec⟩

/-! The block store and the block load -/

/-- Settles O30: each register is read back from its address; the frame is what every instruction leaves (O42). -/
theorem blockStoreWritesRegistersInOrder : Obligations.BlockStoreWritesRegistersInOrder :=
  fun s _ h => ⟨_, exec_storeRegs_of_ea_le h, rfl, fun _ hk => State.read_storeRegs h hk,
    fun a => memoryIsWrittenOnlyByTheTwoStores _ s _ a (exec_storeRegs_of_ea_le h)⟩

/-- Settles O31: `State.reg_loadRegsUpTo` says what each register holds, on either side of x. -/
theorem blockLoadReadsRegistersInOrder : Obligations.BlockLoadReadsRegistersInOrder :=
  fun s x h => ⟨_, exec_loadRegs_of_ea_le h, rfl,
    fun k hk => (s.reg_loadRegsUpTo x k).trans (if_pos hk),
    fun k hk => (s.reg_loadRegsUpTo x k).trans (if_neg (Nat.not_le.mpr hk))⟩

/-! The arithmetic on I -/

theorem zext8_toNat (b : Byte) : (zext8 b).toNat = b.toNat :=
  BitVec.toNat_setWidth_of_le (by decide)

/-- The sum of FX1E is the exact sum modulo 2^16 (43_index_memory.md R121). -/
theorem add_zext8_toNat (w : Word) (b : Byte) : (w + zext8 b).toNat = (w.toNat + b.toNat) % 65536 := by
  rw [BitVec.toNat_add, zext8_toNat]

/-- Settles O28: each of the two sets I alone, to the wrapping sum and to the exact product. -/
theorem indexArithmeticAtSixteenBits : Obligations.IndexArithmeticAtSixteenBits :=
  fun s x => ⟨⟨_, rfl, rfl, add_zext8_toNat s.i (s.reg x)⟩, _, rfl, rfl, glyphAddr_toNat (s.reg x)⟩

end Sys2Proof.Machine

/-! PROOFS of the family 44_display: what laying bits on the display does to every pixel (spec/44_display.md R133 to
R135), put together from one bit to one row to the whole sprite, and with it DXYN and 00E0 (R136, R137). -/

namespace Sys2Proof.Machine

/-! Inverting a set of pixels -/

/-- From acc to out, the pixels of lit are inverted and every other pixel is kept; the collision flag is set where it
was before or where one of lit was on before (44_display.md R133, R134). -/
structure Inverts (lit : Fin 32 → Fin 64 → Prop) (acc out : Display × Bool) : Prop where
  inverted : ∀ r c, lit r c → out.1.get r c = !acc.1.get r c
  kept : ∀ r c, ¬ lit r c → out.1.get r c = acc.1.get r c
  collision : out.2 = true ↔ acc.2 = true ∨ ∃ r c, lit r c ∧ acc.1.get r c = true

section
variable {lit lit' : Fin 32 → Fin 64 → Prop} {acc mid out : Display × Bool}

theorem Inverts.congr (h : Inverts lit acc out) (hlit : ∀ r c, lit r c ↔ lit' r c) : Inverts lit' acc out := by
  obtain rfl : lit = lit' := funext₂ fun r c => propext (hlit r c)
  exact h

theorem inverts_nothing (acc : Display × Bool) : Inverts (fun _ _ => False) acc acc :=
  ⟨nofun, fun _ _ _ => rfl, by simp⟩

/-- Two changes one after the other are one change where no pixel is in both: a pixel of the second still is what it
was before the first. -/
theorem Inverts.trans (h : Inverts lit acc mid) (h' : Inverts lit' mid out) (hdisj : ∀ r c, lit r c → ¬ lit' r c) :
    Inverts (fun r c => lit r c ∨ lit' r c) acc out := by
  have hfresh : ∀ r c, lit' r c → mid.1.get r c = acc.1.get r c :=
    fun r c h2 => h.kept r c fun h1 => hdisj r c h1 h2
  constructor
  · rintro r c (h1 | h2)
    · rw [h'.kept r c (hdisj r c h1), h.inverted r c h1]
    · rw [h'.inverted r c h2, hfresh r c h2]
  · intro r c hnot
    obtain ⟨h1, h2⟩ := not_or.mp hnot
    rw [h'.kept r c h2, h.kept r c h1]
  · have hon : (∃ r c, lit' r c ∧ mid.1.get r c = true) ↔ ∃ r c, lit' r c ∧ acc.1.get r c = true :=
      exists₂_congr fun r c => and_congr_right fun h2 => by rw [hfresh r c h2]
    rw [h'.collision, h.collision, hon, or_assoc]
    simp only [or_and_right, exists_or]

end

/-! One bit, one row, the whole sprite -/

/-- A 1 bit inverts its pixel, a 0 bit inverts none (44_display.md R133). -/
theorem plot_inverts (acc : Display × Bool) (r : Fin 32) (c : Fin 64) (b : Bool) :
    Inverts (fun r' c' => r' = r ∧ c' = c ∧ b = true) acc (plot acc r c b) := by
  constructor
  · rintro r' c' ⟨rfl, rfl, rfl⟩
    rw [plot, Display.get_put, if_pos ⟨rfl, rfl⟩, Bool.xor_true]
  · intro r' c' hnot
    rw [plot, Display.get_put]
    split
    next h =>
      obtain ⟨rfl, rfl⟩ := h
      have hb : b = false := Bool.eq_false_iff.mpr fun hb => hnot ⟨rfl, rfl, hb⟩
      rw [hb, Bool.xor_false]
    next => rfl
  · have hflag : (acc.1.get r c && !(acc.1.get r c ^^ b)) = (b && acc.1.get r c) := by
      cases b <;> cases acc.1.get r c <;> rfl
    simp [plot, hflag]

/-- The pixels of row r0 on which a 1 bit of the byte lands, of the sprite columns listed (44_display.md R133). -/
def columnsLight (x0 : Nat) (r0 : Fin 32) (byte : Byte) (columns : List (Fin 8)) (r : Fin 32) (c : Fin 64) : Prop :=
  r = r0 ∧ ∃ i ∈ columns, c = wrapCol (x0 + i.val) ∧ spriteBit byte i = true

/-- Eight columns side by side stay apart modulo 64 (44_display.md R135). -/
theorem wrapCol_inj {x0 : Nat} {i k : Fin 8} (h : wrapCol (x0 + i.val) = wrapCol (x0 + k.val)) : i = k := by
  have hmod : (x0 + i.val) % 64 = (x0 + k.val) % 64 := congrArg Fin.val h
  omega

theorem columnsLight_cons (x0 : Nat) (r0 : Fin 32) (byte : Byte) (i : Fin 8) (columns : List (Fin 8)) (r : Fin 32)
    (c : Fin 64) :
    columnsLight x0 r0 byte (i :: columns) r c ↔
      (r = r0 ∧ c = wrapCol (x0 + i.val) ∧ spriteBit byte i = true) ∨ columnsLight x0 r0 byte columns r c := by
  simp only [columnsLight, List.exists_mem_cons_iff, and_or_left]

theorem foldl_plot_inverts (x0 : Nat) (r0 : Fin 32) (byte : Byte) {columns : List (Fin 8)} (hnodup : columns.Nodup)
    (acc : Display × Bool) :
    Inverts (columnsLight x0 r0 byte columns) acc
      (columns.foldl (fun acc i => plot acc r0 (wrapCol (x0 + i.val)) (spriteBit byte i)) acc) := by
  induction columns generalizing acc with
  | nil => exact (inverts_nothing acc).congr fun r c => by simp [columnsLight]
  | cons i columns ih =>
    obtain ⟨hi, hrest⟩ := List.nodup_cons.mp hnodup
    refine ((plot_inverts acc r0 _ _).trans (ih hrest _) ?_).congr fun r c =>
      (columnsLight_cons x0 r0 byte i columns r c).symm
    rintro r c ⟨-, hc, -⟩ ⟨-, k, hk, hck, -⟩
    obtain rfl : i = k := wrapCol_inj (hc.symm.trans hck)
    exact hi hk

theorem drawByte_inverts (x0 : Nat) (r0 : Fin 32) (byte : Byte) (acc : Display × Bool) :
    Inverts (columnsLight x0 r0 byte (List.finRange 8)) acc (drawByte x0 r0 byte acc) :=
  foldl_plot_inverts x0 r0 byte (List.nodup_finRange 8) acc

/-- The pixels on which a 1 bit lands of the bytes that are the sprite's rows from row j on (44_display.md R133). -/
def rowsLight (x0 y0 j : Nat) (bytes : List Byte) (r : Fin 32) (c : Fin 64) : Prop :=
  ∃ k < bytes.length, columnsLight x0 (wrapRow (y0 + (j + k))) (bytes.getD k 0) (List.finRange 8) r c

theorem rowsLight_cons (x0 y0 j : Nat) (byte : Byte) (bytes : List Byte) (r : Fin 32) (c : Fin 64) :
    rowsLight x0 y0 j (byte :: bytes) r c ↔
      columnsLight x0 (wrapRow (y0 + j)) byte (List.finRange 8) r c ∨ rowsLight x0 y0 (j + 1) bytes r c := by
  have hnext : ∀ k, j + 1 + k = j + (k + 1) := fun k => by omega
  simp only [rowsLight, List.length_cons, Nat.exists_lt_succ_left, List.getD_cons_zero, List.getD_cons_succ,
    Nat.add_zero, hnext]

/-- At most 32 rows one below the other stay apart modulo 32 (44_display.md R135), so no pixel is drawn on twice. -/
theorem drawRows_inverts (x0 y0 : Nat) {bytes : List Byte} (hlen : bytes.length ≤ 32) (j : Nat)
    (acc : Display × Bool) : Inverts (rowsLight x0 y0 j bytes) acc (drawRows x0 y0 j bytes acc) := by
  induction bytes generalizing j acc with
  | nil => exact (inverts_nothing acc).congr fun r c => by simp [rowsLight]
  | cons byte bytes ih =>
    rw [List.length_cons] at hlen
    refine ((drawByte_inverts x0 _ byte acc).trans (ih (by omega) (j + 1) _) ?_).congr fun r c =>
      (rowsLight_cons x0 y0 j byte bytes r c).symm
    rintro r c ⟨hr, -⟩ ⟨k, hk, hrk, -⟩
    have hmod : (y0 + j) % 32 = (y0 + (j + 1 + k)) % 32 := congrArg Fin.val (hr.symm.trans hrk)
    omega

/-! The sprite as the spec states it -/

/-- The Bit Accessor as a number (44_display.md R130). -/
theorem bitOf_eq_true (v : Byte) (k : Fin 8) : bitOf v k = true ↔ v.toNat / 2 ^ k.val % 2 = 1 := by
  have hnum : (v >>> k.val &&& 1).toNat = v.toNat / 2 ^ k.val % 2 := by
    rw [← lowBit, lowBit_toNat, BitVec.toNat_ushiftRight, Nat.shiftRight_eq_div_pow]
  rw [bitOf, beq_iff_eq, ← hnum]
  exact BitVec.toNat_inj.symm

theorem spriteBit_eq_true (byte : Byte) (i : Fin 8) :
    spriteBit byte i = true ↔ byte.toNat / 2 ^ (7 - i.val) % 2 = 1 := by
  have hcol : (7 - i : Fin 8).val = 7 - i.val := Fin.sub_val_of_le (Fin.le_last i)
  rw [spriteBit, bitOf_eq_true, hcol]

theorem spriteLights_iff_rowsLight (x0 y0 : Byte) (bytes : List Byte) (r : Fin 32) (c : Fin 64) :
    spriteLights x0 y0 bytes r c ↔ rowsLight x0.toNat y0.toNat 0 bytes r c := by
  simp only [spriteLights, rowsLight, columnsLight, Nat.zero_add, List.mem_finRange, true_and, Fin.ext_iff, wrapRow,
    wrapCol, spriteBit_eq_true, Fin.exists_iff]
  constructor
  · rintro ⟨j, i, hj, hi, hr, hc, hb⟩
    exact ⟨j, hj, hr, i, hi, hc, hb⟩
  · rintro ⟨j, hj, hr, i, hi, hc, hb⟩
    exact ⟨j, i, hj, hi, hr, hc, hb⟩

theorem drawSprite_inverts (d : Display) (x0 y0 : Byte) {bytes : List Byte} (hlen : bytes.length ≤ 15) :
    Inverts (spriteLights x0 y0 bytes) (d, false) (drawSprite d x0 y0 bytes) :=
  (drawRows_inverts x0.toNat y0.toNat (hlen.trans (by decide)) 0 (d, false)).congr fun r c =>
    (spriteLights_iff_rowsLight x0 y0 bytes r c).symm

/-- A draw starts with no collision, so its flag is the pixels' alone (44_display.md R134). -/
theorem drawSprite_collision (d : Display) (x0 y0 : Byte) {bytes : List Byte} (hlen : bytes.length ≤ 15) :
    (drawSprite d x0 y0 bytes).2 = true ↔ ∃ r c, spriteLights x0 y0 bytes r c ∧ d.get r c = true :=
  (drawSprite_inverts d x0 y0 hlen).collision.trans (or_iff_right nofun)

/-- Settles O34: no pixel is drawn on twice, so the whole draw inverts the pixels of all the 1 bits. -/
theorem spriteDrawInvertsExactlyTheLitPixels : Obligations.SpriteDrawInvertsExactlyTheLitPixels := fun d x0 y0 _ hlen =>
  have hdraw := drawSprite_inverts d x0 y0 hlen
  ⟨hdraw.inverted, hdraw.kept, drawSprite_collision d x0 y0 hlen⟩

/-! The second draw -/

theorem Display.ext_get {d d' : Display} (h : ∀ r c, d.get r c = d'.get r c) : d = d' :=
  Vector.ext fun r hr => Vector.ext fun c hc => h ⟨r, hr⟩ ⟨c, hc⟩

/-- Settles O35: the second draw inverts the same pixels back, and finds on those that the first found off. -/
theorem drawingTwiceRestoresTheDisplay : Obligations.DrawingTwiceRestoresTheDisplay := by
  intro d x0 y0 bytes hlen
  have hfirst := drawSprite_inverts d x0 y0 hlen
  have hsecond := drawSprite_inverts (drawSprite d x0 y0 bytes).1 x0 y0 hlen
  constructor
  · refine Display.ext_get fun r c => ?_
    by_cases hlit : spriteLights x0 y0 bytes r c
    · rw [hsecond.inverted r c hlit, hfirst.inverted r c hlit, Bool.not_not]
    · rw [hsecond.kept r c hlit, hfirst.kept r c hlit]
  · rw [drawSprite_collision _ x0 y0 hlen]
    refine exists₂_congr fun r c => and_congr_right fun hlit => ?_
    rw [hfirst.inverted r c hlit, Bool.not_eq_true']

/-! DXYN and 00E0 -/

theorem exec_drw_of_inBounds {s : State} (x y : Nibble) {n : Nibble} (h : s.inBounds n.toNat = true) :
    exec (.drw x y n) s = doneTouched (s.draw x y (s.loadBytes n.toNat)) :=
  if_pos h

theorem State.getD_loadBytes (s : State) {len k : Nat} (h : k < len) :
    (s.loadBytes len).getD k 0 = s.mem.read (s.ea k) := by
  simp [State.loadBytes, Memory.readBytes, State.ea, h]

/-- The range condition of DXYN is the model's check (44_display.md R137, 20_memory.md R46). -/
theorem State.inBounds_of_drw {s : State} {n : Nibble} (h : n = 0 ∨ s.ea (n.toNat - 1) ≤ 0xFFF) :
    s.inBounds n.toNat = true := by
  obtain rfl | hea := h
  · rfl
  · rw [State.inBounds, decide_eq_true hea, Bool.or_true]

/-- After the draw VF is the collision flag (44_display.md R137). -/
theorem State.reg_draw_regF (s : State) (x y : Nibble) (bytes : List Byte) :
    (s.draw x y bytes).reg regF = flagByte (drawSprite s.px (s.reg x) (s.reg y) bytes).2 :=
  State.reg_setReg_same _ _ _

/-- Settles O36: in range the draw is done, and O34 says what it does to the pixels and to the flag. -/
theorem drawCompletesWithCollisionInVF : Obligations.DrawCompletesWithCollisionInVF := by
  intro s x y n h
  have hlen : (s.loadBytes n.toNat).length ≤ 15 := by
    rw [State.length_loadBytes]
    exact Nat.le_of_lt_succ n.isLt
  obtain ⟨hinverted, hkept, hcollision⟩ := spriteDrawInvertsExactlyTheLitPixels s.px (s.reg x) (s.reg y) _ hlen
  have hflag := s.reg_draw_regF x y (s.loadBytes n.toNat)
  refine ⟨_, s.loadBytes n.toNat, exec_drw_of_inBounds x y (State.inBounds_of_drw h), s.length_loadBytes _,
    fun j hj => s.getD_loadBytes hj, rfl, hinverted, hkept, ?_, ?_, fun k hk => State.reg_setReg_other _ _ hk⟩
  · rw [State.reg_setOutcome, hflag]
    exact (flagByte_eq_zero_or_one _).symm
  · rw [State.reg_setOutcome, hflag, flagByte_eq_one, hcollision]

/-- Settles O37: 00E0 replaces the display alone. -/
theorem clearTurnsEveryPixelOff : Obligations.ClearTurnsEveryPixelOff :=
  fun _ => ⟨_, rfl, rfl, Display.get_cleared⟩

end Sys2Proof.Machine

/-! PROOFS of the family 45_timer_key: the moves between V[x] and the timers (spec/45_timer_key.md R145, R147, R148),
and the key wait (R146). -/

namespace Sys2Proof.Machine

/-! The timers -/

/-- Settles O38: FX07 writes V[x] alone, the other two set one timer. -/
theorem timerInstructionsMoveOneByte : Obligations.TimerInstructionsMoveOneByte :=
  fun s x => ⟨⟨wordXNN_eq_formulaXNN 0xF x 0x07, s.exists_writesOnly x s.dt⟩,
    ⟨wordXNN_eq_formulaXNN 0xF x 0x15, _, rfl, rfl⟩, wordXNN_eq_formulaXNN 0xF x 0x18, _, rfl, rfl⟩

/-! The key wait -/

/-- The list of pressed keys depends on the keypad alone (10_state.md R21). -/
theorem State.pressed_congr {s s' : State} (h : s'.keys = s.keys) : s'.pressed = s.pressed := by
  rw [State.pressed, State.pressed, h]

theorem State.exists_pressed_eq_cons {s : State} {k : Fin 16} (h : s.keys.get k = true) :
    ∃ first rest, s.pressed = first :: rest :=
  List.exists_cons_of_ne_nil (List.ne_nil_of_mem (State.mem_pressed.mpr h))

theorem exec_ldVxK_of_pressed_eq_cons {s : State} (x : Nibble) {first : Fin 16} {rest : List (Fin 16)}
    (h : s.pressed = first :: rest) :
    exec (.ldVxK x) s = done (s.setReg x (keyByte (pickKey first rest (Config.keyChoice s.keys)))) := by
  simp only [exec, execLdVxK, h]

/-- Settles O39: KeySelect sees the keypad alone and picks a key that is down (`pickKey_mem`). -/
theorem keyWaitStoresAPressedKeyOrBlocks : Obligations.KeyWaitStoresAPressedKeyOrBlocks := by
  intro s x
  constructor
  · rintro ⟨k, hk⟩
    obtain ⟨first, rest, hpressed⟩ := State.exists_pressed_eq_cons hk
    have hdown : s.keys.get (pickKey first rest (Config.keyChoice s.keys)) = true :=
      State.mem_pressed.mp (hpressed ▸ pickKey_mem first rest _)
    refine ⟨_, _, exec_ldVxK_of_pressed_eq_cons x hpressed, hdown, s.writesOnly_setReg x _,
      fun _ honly => honly _ hdown, fun s' t' hkeys hexec => ?_⟩
    rw [exec_ldVxK_of_pressed_eq_cons x ((State.pressed_congr hkeys).trans hpressed), hkeys] at hexec
    obtain rfl := Host.Outcome.next.inj hexec
    rw [State.reg_setOutcome, State.reg_setOutcome, State.reg_setReg_same, State.reg_setReg_same]
  · exact fun hnone => exec_ldVxK_of_pressed_eq_nil x (State.pressed_eq_nil.mpr hnone)

end Sys2Proof.Machine

/-! PROOFS of the family 60_exceptions: the entry into a fault seen from the whole cycle (spec/60_exceptions.md R161,
R167, R168), that every cycle has a next state (R168, R169), the timers' `Tick` (R172), and the keypad (R174). -/

namespace Sys2Proof.Machine

/-! Every cycle answers -/

/-- Settles O14, by what an instruction (`exec_answers`) and a cycle (`step_cycles`) can answer. -/
theorem everyCycleGivesANextState : Obligations.EveryCycleGivesANextState := by
  constructor
  · intro i s
    obtain ⟨t, ht, -⟩ := exec_answers i s
    exact ⟨t, ht⟩
  · intro s
    obtain ⟨t, ht, -⟩ := step_cycles s
    exact ⟨t.endCycle, ht⟩

/-- What a step answers is what the cycle did, closed. -/
theorem cycles_of_step {s t : State} (h : step s = .next t) : ∃ u, t = u.endCycle ∧ s.Cycles u := by
  obtain ⟨u, hu, hcycle⟩ := step_cycles s
  exact ⟨u, Host.Outcome.next.inj (h.symm.trans hu), hcycle⟩

/-! The entry into a fault -/

theorem State.completes.faulted_eq {s u : State} (h : s.completes u) : u.faulted = s.faulted := by
  obtain ⟨hframe, -⟩ := h
  rw [hframe]

/-- A dispatch that sets the latch has raised: completing and blocking leave the latch open. -/
theorem State.Dispatches.entersFault {s t : State} (h : s.Dispatches t) (hf : s.faulted = false)
    (ht : t.faulted = true) : ∃ r, s.entersFault t r ∧ r.pc = s.pc - 2 ∧ r.raised := by
  cases h with
  | complete touched hu =>
    have hopen := hu.faulted_eq.trans hf
    exact absurd (hopen.symm.trans ht) nofun
  | blocked => exact absurd (hf.symm.trans ht) nofun
  | fault hentry hpc hr => exact ⟨_, hentry, hpc, hr⟩

/-- A cycle that sets the latch enters a fault from the state it began in: the entry puts pc back, which is all that
the advance had changed (R168). -/
theorem State.Cycles.entersFault {s t : State} (h : s.Cycles t) (hf : s.faulted = false) (ht : t.faulted = true) :
    ∃ r, s.entersFault t r ∧ r.pc = s.pc ∧ r.raised := by
  cases h with
  | latched hlatched => exact absurd (hf.symm.trans hlatched) nofun
  | fetchFault hentry hpc hr => exact ⟨_, hentry, hpc, hr⟩
  | dispatch _ _ hd =>
    obtain ⟨r, hentry, hpc, hr⟩ := hd.entersFault hf ht
    exact ⟨r, hentry, hpc.trans (BitVec.add_sub_cancel s.pc 2), hr⟩

/-- Settles O13: the fault entered names a cause and the pc the cycle began at. -/
theorem aFaultingCycleLeavesOnlyTheLatch : Obligations.AFaultingCycleLeavesOnlyTheLatch := by
  intro s t h hf ht
  obtain ⟨u, rfl, hcycle⟩ := cycles_of_step h
  obtain ⟨r, hentry, hpc, -, hcause⟩ := hcycle.entersFault hf ht
  rw [State.entersFault, hpc] at hentry
  subst hentry
  exact ⟨rfl, hcause, hpc, rfl⟩

/-! The timers -/

theorem tickDown_toNat (b : Byte) : (tickDown b).toNat = b.toNat - 1 := by
  unfold tickDown
  split
  next h =>
    subst h
    rfl
  next h =>
    have hpos : 1 ≤ b.toNat := Nat.one_le_iff_ne_zero.mpr fun h0 => h (BitVec.eq_of_toNat_eq h0)
    exact BitVec.toNat_sub_of_le hpos

/-- Settles O50: `Tick` counts each timer down by `tickDown`. -/
theorem tickDecrementsBothTimersToZero : Obligations.TickDecrementsBothTimersToZero :=
  fun s => ⟨opTick s, rfl, rfl, tickDown_toNat s.dt, tickDown_toNat s.st⟩

/-! The keypad -/

theorem opSetKey_keys_get (s : State) (k : Nibble) (pressed : Bool) (j : Fin 16) :
    (opSetKey k pressed s).keys.get j = if j.val = k.toNat then pressed else s.keys.get j := by
  simp only [opSetKey, Vector.get_eq_getElem, Vector.getElem_set, eq_comm]

theorem State.completes.keys_eq {s u : State} (h : s.completes u) : u.keys = s.keys := by
  obtain ⟨hframe, -⟩ := h
  rw [hframe]

theorem State.entersFault.keys_eq {s t : State} {r : FaultRecord} (h : s.entersFault t r) : t.keys = s.keys := by
  rw [h]

theorem State.Dispatches.keys_eq {s t : State} (h : s.Dispatches t) : t.keys = s.keys := by
  cases h with
  | complete touched hu => exact hu.keys_eq
  | blocked => rfl
  | fault hentry => exact hentry.keys_eq

theorem State.Cycles.keys_eq {s t : State} (h : s.Cycles t) : t.keys = s.keys := by
  cases h with
  | latched => rfl
  | fetchFault hentry => exact hentry.keys_eq
  | dispatch _ _ hd => exact hd.keys_eq

/-- Settles O51: `SetKey` sets one entry of the keypad, and nothing a cycle can do touches it. -/
theorem setKeyWritesOneFlag : Obligations.SetKeyWritesOneFlag := by
  constructor
  · intro s k pressed
    exact ⟨opSetKey k pressed s, rfl, rfl, opSetKey_keys_get s k pressed⟩
  · intro s t h
    obtain ⟨u, rfl, hcycle⟩ := cycles_of_step h
    exact hcycle.keys_eq

end Sys2Proof.Machine

/-! PROOFS of the family 70_reset_and_hazards: the values that `Reset` leaves (spec/70_reset_and_hazards.md R190, R191)
and the two answers of `Load` (R194). -/

namespace Sys2Proof.Machine

/-! Reset -/

/-- Nothing is listed after `Reset`, so every address reads as its reset byte. -/
theorem State.reset_mem_read (a : Nat) : State.reset.mem.read a = unlisted a := rfl

theorem State.reset_holdsFont : State.reset.holdsFont Config.font :=
  fun k => (State.reset_mem_read k.val).trans (unlisted_font k)

/-- Settles O46: a register file, the stack or the keypad repeats its zero in every entry, and memory reads as
`unlisted`. -/
theorem resetLeavesTheStatedValues : Obligations.ResetLeavesTheStatedValues := by
  have hreg (k : Nibble) : State.reset.reg k = 0 := Vector.get_replicate 16 0 k.toFin
  have hstack (k : Fin 16) : State.reset.stack.get k = 0 := Vector.get_replicate 16 0 k
  have hkeys (k : Fin 16) : State.reset.keys.get k = false := Vector.get_replicate 16 false k
  have hzero (a : Nat) (ha : 80 ≤ a) : State.reset.mem.read a = 0 := (State.reset_mem_read a).trans (unlisted_above ha)
  exact ⟨rfl, rfl, hreg, rfl, rfl, rfl, hstack, Display.get_cleared, hkeys, rfl, rfl, rfl, State.reset_holdsFont, hzero⟩

/-! Load -/

theorem loadFits_iff {offset : BitVec 12} {bytes : List Byte} :
    loadFits offset bytes = true ↔ offset.toNat + bytes.length ≤ 4096 :=
  decide_eq_true_iff

theorem operate_load_ok (s : State) {offset : BitVec 12} {bytes : List Byte}
    (h : offset.toNat + bytes.length ≤ 4096) :
    operate (.load offset bytes) s = .next (s.setMem (s.mem.writeBytes offset.toNat bytes), .ok) := by
  have hfit : loadFits offset bytes = true := loadFits_iff.mpr h
  rw [operate, opLoad, if_pos hfit, if_pos hfit]

theorem operate_load_refused (s : State) {offset : BitVec 12} {bytes : List Byte}
    (h : 4096 < offset.toNat + bytes.length) : operate (.load offset bytes) s = .next (s, .refused) := by
  have hfit : ¬ loadFits offset bytes = true := mt loadFits_iff.mp (Nat.not_le_of_lt h)
  rw [operate, opLoad, if_neg hfit, if_neg hfit]

/-- Settles O52: a `Load` that fits is one `Memory.writeBytes` inside the address space. -/
theorem loadWritesItsBytesOrNothing : Obligations.LoadWritesItsBytesOrNothing := by
  intro s offset bytes
  refine ⟨fun hfit => ⟨_, operate_load_ok s hfit, rfl, fun k hk => ?_, fun a ha => ?_⟩,
    operate_load_refused s⟩
  · rw [List.getD_eq_getElem _ _ hk]
    exact Memory.read_writeBytes_inside bytes s.mem hk hfit
  · exact Memory.read_writeBytes_outside bytes s.mem ha

end Sys2Proof.Machine
